-- ==== Sys2Proof/Word.lean ====
section
/-! DEFINITION. The command word and the value types of the block (`00_scope.md` R6, R7; `30_encoding.md` R80). -/

namespace Sys2Proof

/-- One 32-bit command word; also the width of a scalar and of a control register (R80, R9, R29). -/
abbrev Word := BitVec 32

/-- A bit vector: a finite sequence of elements of GF(2), index 0 first; `true` is the element 1 (R6). -/
abbrev BitVector := List Bool

/-- A polynomial over GF(2) as its coefficient vector, element `i` the coefficient of `x^i` (R7); a value of this
type is meant to be trimmed (R11). -/
abbrev Poly := BitVector

end Sys2Proof
end

