-- ==== Sys2Proof/Syntax.lean ====
section
/-! DEFINITION. The commands of the GF2CC command set, one constructor per row of `30_encoding.md` R84. -/

namespace Sys2Proof

/-- The number of a vector register, `V0` to `V15` (R20, R81). -/
structure VReg where
  num : Fin 16
  deriving DecidableEq, Repr

/-- The number of a scalar register, `X0` to `X15` (R22, R81). -/
structure XReg where
  num : Fin 16
  deriving DecidableEq, Repr

/-- The 31 commands. Each register field has one fixed kind, `VReg` or `XReg`, as the table of R84 gives it (R81, R92);
the fields stand in the order `rd`, `ra`, `rb`, `rc` of the word. -/
inductive Instr where
  /-- XLI `xd, imm` (R220). -/
  | xli (rd : XReg) (imm20 : BitVec 20)
  /-- CSRR `xd, csr` (R221). -/
  | csrr (rd : XReg) (imm20 : BitVec 20)
  /-- GLD `vd` (R222). -/
  | gld (rd : VReg)
  /-- VZERO `vd, xa` (R110). -/
  | vzero (rd : VReg) (ra : XReg)
  /-- VLIT `vd, [..]` (R111). -/
  | vlit (rd : VReg) (len : BitVec 4) (bits : BitVec 16)
  /-- VLEN `xd, va` (R112). -/
  | vlen (rd : XReg) (ra : VReg)
  /-- VADD `vd, va, vb` (R113). -/
  | vadd (rd ra rb : VReg)
  /-- VGET `xd, va, xb` (R114). -/
  | vget (rd : XReg) (ra : VReg) (rb : XReg)
  /-- VSLICE `vd, va, xb, xc` (R115). -/
  | vslice (rd ra : VReg) (rb rc : XReg)
  /-- VSET `vd, xa, xb` (R116). -/
  | vset (rd : VReg) (ra rb : XReg)
  /-- VCAT `vd, va, vb` (R117). -/
  | vcat (rd ra rb : VReg)
  /-- VWT `xd, va` (R118). -/
  | vwt (rd : XReg) (ra : VReg)
  /-- VROR `vd, va, xb` (R119). -/
  | vror (rd ra : VReg) (rb : XReg)
  /-- SEQ `vd, xa, xb` (R132). -/
  | seq (rd : VReg) (ra rb : XReg)
  /-- PTRIM `vd, va` (R150). -/
  | ptrim (rd ra : VReg)
  /-- PMONO `vd, xa` (R151). -/
  | pmono (rd : VReg) (ra : XReg)
  /-- PDEG `xd, va` (R152). -/
  | pdeg (rd : XReg) (ra : VReg)
  /-- PWT `xd, va` (R153). -/
  | pwt (rd : XReg) (ra : VReg)
  /-- PADD `vd, va, vb` (R154). -/
  | padd (rd ra rb : VReg)
  /-- PMUL `vd, va, vb` (R155). -/
  | pmul (rd ra rb : VReg)
  /-- PDIVMOD: `rd` quotient, `ra` dividend, `rb` divisor, `rc` remainder; written `PDIVMOD rd, rc, ra, rb` (R81, R156). -/
  | pdivmod (rd ra rb rc : VReg)
  /-- PQUO `vd, va, vb` (R157). -/
  | pquo (rd ra rb : VReg)
  /-- PREM `vd, va, vb` (R158). -/
  | prem (rd ra rb : VReg)
  /-- PWORD `vd, va, xb` (R159). -/
  | pword (rd ra : VReg) (rb : XReg)
  /-- ENC `vd, va` (R176). -/
  | enc (rd ra : VReg)
  /-- DEC `vd, va` (R177). -/
  | dec (rd ra : VReg)
  /-- SYND `vd, va` (R180). -/
  | synd (rd ra : VReg)
  /-- SYNR `vd, va, xb` (R181). -/
  | synr (rd ra : VReg) (rb : XReg)
  /-- BTQ `xd, va` (R182). -/
  | btq (rd : XReg) (ra : VReg)
  /-- FERR `vd, va` (R203). -/
  | ferr (rd ra : VReg)
  /-- FPKG `vd, va` (R204). -/
  | fpkg (rd ra : VReg)
  deriving DecidableEq, Repr

/-- The mnemonic of the command's row in R84. -/
def Instr.mnemonic : Instr → String
  | .xli _ _ => "XLI"
  | .csrr _ _ => "CSRR"
  | .gld _ => "GLD"
  | .vzero _ _ => "VZERO"
  | .vlit _ _ _ => "VLIT"
  | .vlen _ _ => "VLEN"
  | .vadd _ _ _ => "VADD"
  | .vget _ _ _ => "VGET"
  | .vslice _ _ _ _ => "VSLICE"
  | .vset _ _ _ => "VSET"
  | .vcat _ _ _ => "VCAT"
  | .vwt _ _ => "VWT"
  | .vror _ _ _ => "VROR"
  | .seq _ _ _ => "SEQ"
  | .ptrim _ _ => "PTRIM"
  | .pmono _ _ => "PMONO"
  | .pdeg _ _ => "PDEG"
  | .pwt _ _ => "PWT"
  | .padd _ _ _ => "PADD"
  | .pmul _ _ _ => "PMUL"
  | .pdivmod _ _ _ _ => "PDIVMOD"
  | .pquo _ _ _ => "PQUO"
  | .prem _ _ _ => "PREM"
  | .pword _ _ _ => "PWORD"
  | .enc _ _ => "ENC"
  | .dec _ _ => "DEC"
  | .synd _ _ => "SYND"
  | .synr _ _ _ => "SYNR"
  | .btq _ _ => "BTQ"
  | .ferr _ _ => "FERR"
  | .fpkg _ _ => "FPKG"

/-- The pseudo-command PFLOORDIV `rd, ra, rb` (R90). -/
abbrev Instr.pfloordiv (rd ra rb : VReg) : Instr := .pquo rd ra rb

/-- The pseudo-command PMOD `rd, ra, rb` (R90). -/
abbrev Instr.pmod (rd ra rb : VReg) : Instr := .prem rd ra rb

end Sys2Proof
end

