-- ==== Sys2Proof/WellFormed.lean ====
section
/-! DEFINITION. The extra conditions of `30_encoding.md` R84 and R85 on the fields of a command. -/

namespace Sys2Proof

/-- The extra condition of the command's row in R84: CSRR `imm20 <= 9`; VLIT no one at or above bit `len`; PDIVMOD
`rd != rc`; no condition on any other row. -/
def Instr.wellFormed : Instr → Bool
  | .csrr _ imm20 => decide (imm20.toNat ≤ 9)
  | .vlit _ len bits => bits >>> len.toNat == 0
  | .pdivmod rd _ _ rc => rd != rc
  | .xli _ _ => true
  | .gld _ => true
  | .vzero _ _ => true
  | .vlen _ _ => true
  | .vadd _ _ _ => true
  | .vget _ _ _ => true
  | .vslice _ _ _ _ => true
  | .vset _ _ _ => true
  | .vcat _ _ _ => true
  | .vwt _ _ => true
  | .vror _ _ _ => true
  | .seq _ _ _ => true
  | .ptrim _ _ => true
  | .pmono _ _ => true
  | .pdeg _ _ => true
  | .pwt _ _ => true
  | .padd _ _ _ => true
  | .pmul _ _ _ => true
  | .pquo _ _ _ => true
  | .prem _ _ _ => true
  | .pword _ _ _ => true
  | .enc _ _ => true
  | .dec _ _ => true
  | .synd _ _ => true
  | .synr _ _ _ => true
  | .btq _ _ => true
  | .ferr _ _ => true
  | .fpkg _ _ => true

end Sys2Proof
end

