-- ==== Sys2Proof/Decode.lean ====
section
/-! DEFINITION. From a command word to a command and back (`30_encoding.md` R80 to R85), and the opcode map of R84 as
data. -/

namespace Sys2Proof

/-- Why a word is no legal command (R85); each raises `IllegalCommand`. -/
inductive Illegal where
  /-- The opcode is in no row of the table. -/
  | unknownOpcode
  /-- An unused register field or one of bits 7 to 0 is not zero. -/
  | nonzeroUnused
  /-- CSRR with a control register number above 9. -/
  | csrNumber
  /-- VLIT with a one at or above bit `len`. -/
  | literalBits
  /-- PDIVMOD with `rd = rc`. -/
  | sameDestination
  deriving DecidableEq, Repr

/-! ### Fields of a word (R80 to R82) -/

/-- The opcode, bits 31:24. -/
def opcodeOf (w : Word) : Nat := (w.extractLsb' 24 8).toNat

/-- A vector register field whose lowest bit is bit `lo`. -/
def vField (w : Word) (lo : Nat) : VReg := ⟨(w.extractLsb' lo 4).toFin⟩

/-- A scalar register field whose lowest bit is bit `lo`. -/
def xField (w : Word) (lo : Nat) : XReg := ⟨(w.extractLsb' lo 4).toFin⟩

/-- `imm20`, bits 19:0 of format I. -/
def imm20Field (w : Word) : BitVec 20 := w.extractLsb' 0 20

/-- `len`, bits 19:16 of format L. -/
def lenField (w : Word) : BitVec 4 := w.extractLsb' 16 4

/-- `bits`, bits 15:0 of format L. -/
def bitsField (w : Word) : BitVec 16 := w.extractLsb' 0 16

/-! ### Decoding -/

/-- A row of format R whose unused fields and zero bits are the bits below bit `m` (R81, R85). -/
def lowZero (m : Nat) (w : Word) (i : Instr) : Except Illegal Instr :=
  if w.toNat % 2 ^ m = 0 then .ok i else .error .nonzeroUnused

/-- A row with an extra condition (R84). -/
def onlyIf (why : Illegal) (i : Instr) : Except Illegal Instr :=
  if i.wellFormed then .ok i else .error why

/-- The command a word is, or why it is none (R84, R85). -/
def decode (w : Word) : Except Illegal Instr :=
  match opcodeOf w with
  | 0x01 => .ok (.xli (xField w 20) (imm20Field w))
  | 0x02 => onlyIf .csrNumber (.csrr (xField w 20) (imm20Field w))
  | 0x03 => lowZero 20 w (.gld (vField w 20))
  | 0x10 => lowZero 16 w (.vzero (vField w 20) (xField w 16))
  | 0x11 => onlyIf .literalBits (.vlit (vField w 20) (lenField w) (bitsField w))
  | 0x12 => lowZero 16 w (.vlen (xField w 20) (vField w 16))
  | 0x13 => lowZero 12 w (.vadd (vField w 20) (vField w 16) (vField w 12))
  | 0x14 => lowZero 12 w (.vget (xField w 20) (vField w 16) (xField w 12))
  | 0x15 => lowZero 8 w (.vslice (vField w 20) (vField w 16) (xField w 12) (xField w 8))
  | 0x16 => lowZero 12 w (.vset (vField w 20) (xField w 16) (xField w 12))
  | 0x17 => lowZero 12 w (.vcat (vField w 20) (vField w 16) (vField w 12))
  | 0x18 => lowZero 16 w (.vwt (xField w 20) (vField w 16))
  | 0x19 => lowZero 12 w (.vror (vField w 20) (vField w 16) (xField w 12))
  | 0x20 => lowZero 12 w (.seq (vField w 20) (xField w 16) (xField w 12))
  | 0x30 => lowZero 16 w (.ptrim (vField w 20) (vField w 16))
  | 0x31 => lowZero 16 w (.pmono (vField w 20) (xField w 16))
  | 0x32 => lowZero 16 w (.pdeg (xField w 20) (vField w 16))
  | 0x33 => lowZero 16 w (.pwt (xField w 20) (vField w 16))
  | 0x34 => lowZero 12 w (.padd (vField w 20) (vField w 16) (vField w 12))
  | 0x35 => lowZero 12 w (.pmul (vField w 20) (vField w 16) (vField w 12))
  | 0x36 =>
    if w.toNat % 2 ^ 8 = 0 then
      onlyIf .sameDestination (.pdivmod (vField w 20) (vField w 16) (vField w 12) (vField w 8))
    else .error .nonzeroUnused
  | 0x37 => lowZero 12 w (.pquo (vField w 20) (vField w 16) (vField w 12))
  | 0x38 => lowZero 12 w (.prem (vField w 20) (vField w 16) (vField w 12))
  | 0x39 => lowZero 12 w (.pword (vField w 20) (vField w 16) (xField w 12))
  | 0x40 => lowZero 16 w (.enc (vField w 20) (vField w 16))
  | 0x41 => lowZero 16 w (.dec (vField w 20) (vField w 16))
  | 0x42 => lowZero 16 w (.synd (vField w 20) (vField w 16))
  | 0x43 => lowZero 12 w (.synr (vField w 20) (vField w 16) (xField w 12))
  | 0x44 => lowZero 16 w (.btq (xField w 20) (vField w 16))
  | 0x45 => lowZero 16 w (.ferr (vField w 20) (vField w 16))
  | 0x46 => lowZero 16 w (.fpkg (vField w 20) (vField w 16))
  | _ => .error .unknownOpcode

/-! ### Encoding -/

/-- A word of format R (R81): opcode, the four register fields, bits 7:0 zero; an unused field is 0. -/
def formatR (opcode rd ra rb rc : Nat) : Word :=
  BitVec.ofNat 32 (opcode * 2 ^ 24 + rd * 2 ^ 20 + ra * 2 ^ 16 + rb * 2 ^ 12 + rc * 2 ^ 8)

/-- A word of format L (R82). -/
def formatL (opcode rd len bits : Nat) : Word :=
  BitVec.ofNat 32 (opcode * 2 ^ 24 + rd * 2 ^ 20 + len * 2 ^ 16 + bits)

/-- A word of format I (R82). -/
def formatI (opcode rd imm20 : Nat) : Word :=
  BitVec.ofNat 32 (opcode * 2 ^ 24 + rd * 2 ^ 20 + imm20)

/-- The word of a command, by the opcode and the format its row of R84 gives it. -/
def encode : Instr → Word
  | .xli rd imm20 => formatI 0x01 rd.num imm20.toNat
  | .csrr rd imm20 => formatI 0x02 rd.num imm20.toNat
  | .gld rd => formatR 0x03 rd.num 0 0 0
  | .vzero rd ra => formatR 0x10 rd.num ra.num 0 0
  | .vlit rd len bits => formatL 0x11 rd.num len.toNat bits.toNat
  | .vlen rd ra => formatR 0x12 rd.num ra.num 0 0
  | .vadd rd ra rb => formatR 0x13 rd.num ra.num rb.num 0
  | .vget rd ra rb => formatR 0x14 rd.num ra.num rb.num 0
  | .vslice rd ra rb rc => formatR 0x15 rd.num ra.num rb.num rc.num
  | .vset rd ra rb => formatR 0x16 rd.num ra.num rb.num 0
  | .vcat rd ra rb => formatR 0x17 rd.num ra.num rb.num 0
  | .vwt rd ra => formatR 0x18 rd.num ra.num 0 0
  | .vror rd ra rb => formatR 0x19 rd.num ra.num rb.num 0
  | .seq rd ra rb => formatR 0x20 rd.num ra.num rb.num 0
  | .ptrim rd ra => formatR 0x30 rd.num ra.num 0 0
  | .pmono rd ra => formatR 0x31 rd.num ra.num 0 0
  | .pdeg rd ra => formatR 0x32 rd.num ra.num 0 0
  | .pwt rd ra => formatR 0x33 rd.num ra.num 0 0
  | .padd rd ra rb => formatR 0x34 rd.num ra.num rb.num 0
  | .pmul rd ra rb => formatR 0x35 rd.num ra.num rb.num 0
  | .pdivmod rd ra rb rc => formatR 0x36 rd.num ra.num rb.num rc.num
  | .pquo rd ra rb => formatR 0x37 rd.num ra.num rb.num 0
  | .prem rd ra rb => formatR 0x38 rd.num ra.num rb.num 0
  | .pword rd ra rb => formatR 0x39 rd.num ra.num rb.num 0
  | .enc rd ra => formatR 0x40 rd.num ra.num 0 0
  | .dec rd ra => formatR 0x41 rd.num ra.num 0 0
  | .synd rd ra => formatR 0x42 rd.num ra.num 0 0
  | .synr rd ra rb => formatR 0x43 rd.num ra.num rb.num 0
  | .btq rd ra => formatR 0x44 rd.num ra.num 0 0
  | .ferr rd ra => formatR 0x45 rd.num ra.num 0 0
  | .fpkg rd ra => formatR 0x46 rd.num ra.num 0 0

/-! ### The opcode map of R84 -/

/-- A row of the table of R84: mnemonic, match and mask. -/
structure OpcodeRow where
  mnemonic : String
  pattern : Word
  mask : Word
  deriving DecidableEq, Repr

/-- The extra condition of a row (R84), read from the word. -/
def OpcodeRow.extra (r : OpcodeRow) (w : Word) : Bool :=
  if r.mnemonic = "CSRR" then decide ((w.extractLsb' 0 20).toNat ≤ 9)
  else if r.mnemonic = "VLIT" then (w.extractLsb' 0 16) >>> (w.extractLsb' 16 4).toNat == 0
  else if r.mnemonic = "PDIVMOD" then w.extractLsb' 20 4 != w.extractLsb' 8 4
  else true

/-- A word `w` is the command of a row when `(w and mask) = match` and the row's extra condition holds (R84). -/
def OpcodeRow.accepts (r : OpcodeRow) (w : Word) : Bool := w &&& r.mask == r.pattern && r.extra w

/-- The table of R84, copied row by row; decode and encode above do not use it. -/
def opcodeMap : List OpcodeRow :=
  [⟨"XLI", 0x01000000, 0xFF000000⟩, ⟨"CSRR", 0x02000000, 0xFF000000⟩, ⟨"GLD", 0x03000000, 0xFF0FFFFF⟩]
  ++ [⟨"VZERO", 0x10000000, 0xFF00FFFF⟩, ⟨"VLIT", 0x11000000, 0xFF000000⟩, ⟨"VLEN", 0x12000000, 0xFF00FFFF⟩,
    ⟨"VADD", 0x13000000, 0xFF000FFF⟩, ⟨"VGET", 0x14000000, 0xFF000FFF⟩, ⟨"VSLICE", 0x15000000, 0xFF0000FF⟩,
    ⟨"VSET", 0x16000000, 0xFF000FFF⟩, ⟨"VCAT", 0x17000000, 0xFF000FFF⟩, ⟨"VWT", 0x18000000, 0xFF00FFFF⟩,
    ⟨"VROR", 0x19000000, 0xFF000FFF⟩]
  ++ [⟨"SEQ", 0x20000000, 0xFF000FFF⟩]
  ++ [⟨"PTRIM", 0x30000000, 0xFF00FFFF⟩, ⟨"PMONO", 0x31000000, 0xFF00FFFF⟩, ⟨"PDEG", 0x32000000, 0xFF00FFFF⟩,
    ⟨"PWT", 0x33000000, 0xFF00FFFF⟩, ⟨"PADD", 0x34000000, 0xFF000FFF⟩, ⟨"PMUL", 0x35000000, 0xFF000FFF⟩,
    ⟨"PDIVMOD", 0x36000000, 0xFF0000FF⟩, ⟨"PQUO", 0x37000000, 0xFF000FFF⟩, ⟨"PREM", 0x38000000, 0xFF000FFF⟩,
    ⟨"PWORD", 0x39000000, 0xFF000FFF⟩]
  ++ [⟨"ENC", 0x40000000, 0xFF00FFFF⟩, ⟨"DEC", 0x41000000, 0xFF00FFFF⟩, ⟨"SYND", 0x42000000, 0xFF00FFFF⟩,
    ⟨"SYNR", 0x43000000, 0xFF000FFF⟩, ⟨"BTQ", 0x44000000, 0xFF00FFFF⟩, ⟨"FERR", 0x45000000, 0xFF00FFFF⟩,
    ⟨"FPKG", 0x46000000, 0xFF00FFFF⟩]

/-! ### The words of spec/opcode_table.json -/

/-- The word whose low `nbits` bits are those of `w`, every higher bit 0. -/
def tableWord (nbits w : Nat) : Word := BitVec.ofNat 32 (w % 2 ^ nbits)

/-- The command read from a table word; bit 0 is the word's least significant bit, as in R80. The word is delivered
whole on `cmd_word`, so there is no byte order to apply (R62, R63). -/
def decodeTableWord (nbits w : Nat) : Option Instr :=
  match decode (tableWord nbits w) with
  | .ok i => some i
  | .error _ => none

end Sys2Proof
end

