-- ==== Sys2Proof/Machine/Vectors.lean ====
section
/-! DEFINITION. The functions on bit vectors (`00_scope.md` R6, R8; `40_bitvector.md` R100, R101). -/

namespace Sys2Proof.Machine

/-- `zeros(m)`, the vector of `m` zeros (R6). -/
def zeros (m : Nat) : BitVector := List.replicate m false

/-- `wt(v)`, the number of elements equal to 1 (R6). -/
def wt (v : BitVector) : Nat := v.count true

/-- `v[lo:hi]`, the elements with index `lo <= i < hi` (R6). -/
def slice (v : BitVector) (lo hi : Nat) : BitVector := (v.take hi).drop lo

/-- `vadd(a, b)`, element-wise exclusive or of two vectors of one length (R8, R100). -/
def vadd (a b : BitVector) : BitVector := List.zipWith xor a b

/-- `rotR(v, a)`, rotation right by an integer amount (R101); R102 gives the reading of the source behind it (log
15). -/
def rotR (v : BitVector) (a : Int) : BitVector :=
  if a = 0 then v
  else if 0 < a then
    let m := min a.toNat v.length
    slice v (v.length - m) v.length ++ slice v 0 (v.length - m)
  else
    let m := min (-a).toNat v.length
    slice v m v.length ++ slice v 0 m

end Sys2Proof.Machine
end

