-- ==== Sys2Proof/Machine/Polynomials.lean ====
section
/-! DEFINITION. The functions on polynomials over GF(2) (`42_polynomial.md` R140 to R149). -/

namespace Sys2Proof.Machine

/-- `trim(v)`, the vector without its trailing zeros, those at the highest indices (R140). -/
def trim (v : BitVector) : Poly := v.rdropWhile (fun b => !b)

/-- `poly(v)`, the polynomial a bit vector stands for (R141). -/
def poly (v : BitVector) : Poly := trim v

/-- `deg(a)`, -1 for the zero polynomial (R142). -/
def deg (a : Poly) : Int := (a.length : Int) - 1

/-- `padd(a, b)`, polynomial addition: exclusive or of the operands zero-extended to the longer length, then trimmed
(R143). -/
def padd (a b : Poly) : Poly :=
  let L := max a.length b.length
  trim (vadd (a ++ zeros (L - a.length)) (b ++ zeros (L - b.length)))

/-- `shl(a, i)`, `a` multiplied by `x^i` (R144). -/
def shl (a : Poly) (i : Nat) : Poly := trim (zeros i ++ a)

/-- `mono(d)`, the monomial `x^d` (R148). -/
def mono (d : Nat) : Poly := zeros d ++ [true]

/-- `pmul(a, b)`, the multiplier: for every set coefficient of `b`, in ascending order, accumulate `a` shifted (R145). -/
def pmul (a b : Poly) : Poly :=
  (List.range b.length).foldl (fun acc i => if b.getD i false then padd acc (shl a i) else acc) []

/-- The divider's loop (R146), at most `fuel` passes. -/
def pdivmodLoop (b : Poly) : Nat → Poly → Poly → Poly × Poly
  | 0, q, rem => (q, rem)
  | fuel + 1, q, rem =>
    if deg b ≤ deg rem then
      let d := (deg rem - deg b).toNat
      pdivmodLoop b fuel (padd q (mono d)) (padd rem (shl b d))
    else (q, rem)

/-- `pdivmod(a, b)`, quotient and remainder (R146), defined for `b` not zero. The loop runs at most
`deg(a) - deg(b) + 1` times (R146, R269), which is at most `len(a)`. -/
def pdivmod (a b : Poly) : Poly × Poly := pdivmodLoop b a.length [] a

/-- `pquo(a, b)`, the quotient (R147). -/
def pquo (a b : Poly) : Poly := (pdivmod a b).1

/-- `prem(a, b)`, the remainder (R147). -/
def prem (a b : Poly) : Poly := (pdivmod a b).2

/-- `toWord(a, L)`, the coefficient vector zero-padded to length `L >= len(a)` at its high-index end (R149). -/
def toWord (a : Poly) (L : Nat) : BitVector := a ++ zeros (L - a.length)

end Sys2Proof.Machine
end

