-- ==== Sys2Proof/Machine/Sequences.lean ====
section
/-! DEFINITION. The exhaustive sequence of bit vectors (`41_seqgen.md` R130, R131). -/

namespace Sys2Proof.Machine

/-- `gen(L)`, every bit vector of length `L` in the generator's order (R130); `gen(0)` is the one empty vector. -/
def gen : Nat → List BitVector
  | 0 => [[]]
  | 1 => [[false], [true]]
  | L + 2 => (gen (L + 1)).flatMap fun w => [w ++ [true], w ++ [false]]

/-- `seq(L, j)`, the member of `gen(L)` at position `j` (R131): element 0 is the bit of `j` of weight `2^(L-1)`, element
`m >= 1` the complement of the bit of weight `2^(L-1-m)`. -/
def seq (L j : Nat) : BitVector :=
  (List.range L).map fun m => if m = 0 then j.testBit (L - 1) else !(j.testBit (L - 1 - m))

end Sys2Proof.Machine
end

