-- ==== Sys2Proof/Config.lean ====
section
/-! DEFINITION. What is fixed when the block is built: the parameters of `00_scope.md` R5. The spec leaves no other
point to an implementation and no result of a command open, so this file holds no constant without a value. -/

namespace Sys2Proof

/-- The parameters of one built block, one CyclicCode of the source and the capacity (R5, R37). -/
structure CodeParams where
  /-- `n`, the codeword length in bits. -/
  n : Nat
  /-- `g`, the generator polynomial, a trimmed coefficient vector. -/
  g : Poly
  /-- `p`, the burst size. -/
  p : Nat
  /-- `LMAX`, the largest length in bits a vector register holds. -/
  lmax : Nat
  deriving DecidableEq, Repr

namespace Config

/-- The spec's example set A: `n = 7`, `g = [1,1,0,1]`, `p = 1` (R5). `LMAX = 64`: DESIGN CHOICE (log 2), unsafe; the
spec's vectors ask `LMAX >= 64` (`95_test_vectors.md`). -/
def codeA : CodeParams := ⟨7, [true, true, false, true], 1, 64⟩

/-- The spec's example set B: `n = 15`, `g = [1,0,0,1,1,1,1]`, `p = 3` (R5), with the same `LMAX`. -/
def codeB : CodeParams := ⟨15, [true, false, false, true, true, true, true], 3, 64⟩

end Config

end Sys2Proof
end

