-- ==== Sys2Proof/Machine/State.lean ====
section
/-! DEFINITION. The architectural state (`10_state.md` R20 to R37), the fault kinds (`60_exceptions.md` R231), the
host's moves and the state after reset (R33, R260). -/

namespace Sys2Proof.Machine

/-- The fault kinds of R231, codes 1 to 12 in this order. Codes 2, 3 and 7 are never written (R233). -/
inductive Kind where
  | invalidElement
  | invalidIndexType
  | invalidConstructorType
  | lengthMismatch
  | lengthTooShort
  | negativeDegree
  | typeMismatch
  | invalidLength
  | outOfRange
  | divideByZero
  | capacity
  | illegalCommand
  deriving DecidableEq, Repr

/-- One response pulse on `rsp_valid`: the levels of `rsp_fault` and `rsp_cause` with it (R34). -/
structure Response where
  fault : Bool
  cause : BitVec 4
  deriving DecidableEq, Repr

/-- What the host does next (R36). -/
inductive HostMove where
  /-- Offers a command word until it is taken and waits for the answer (R35). -/
  | command (w : Word)
  /-- Holds `rst` at 1 for a rising edge (R260). -/
  | reset
  /-- Offers a command word, and `rst` is sampled 1 after it is taken and before it is answered (R261;
  log 11). -/
  | commandThenReset (w : Word)
  deriving DecidableEq, Repr

/-- Why the machine stops with a fault. There is no reason: a command's contract violation is recorded in the state by
`raise` and the machine goes on (R236, R249), and the block has no stuck state (R269). Nobody raises one; safe (log 8). -/
inductive Fault where
  deriving DecidableEq, Repr

/-- Why the model gives a step no meaning. -/
inductive Refusal where
  /-- An arm of exec whose command has no meaning yet; no arm uses it. Safe. -/
  | notModelled (mnemonic : String)
  /-- Raised by `fetch` and `State.build` for a parameter set that is not legal: no such block exists (R171, R235). Safe
  (log 7). -/
  | invalidCodeParameters
  /-- Raised by `fetch` for a command word offered before the first reset (R262; `93_implementation_defined.md` U9). Safe
  (log 6). -/
  | beforeFirstReset
  deriving DecidableEq, Repr

/-- The state of the block, its constants and what its host will do. -/
structure State where
  /-- The constants of the built block (R5, R29, R30); no step changes them (R31). The spec calls them parameters of the
  step function (R37); here they travel with the state (DESIGN CHOICE, log 1, safe). -/
  code : CodeParams
  /-- Whether the block has been reset since power-up (R262); false stands for a state whose registers are unspecified
  (DEDUCED, log 6, safe). -/
  live : Bool
  /-- The vector registers `V0` to `V15` (R20). -/
  v : Vector BitVector 16
  /-- The scalar registers `X0` to `X15`, two's complement (R22). -/
  x : Vector (BitVec 32) 16
  /-- `FLAGS.F` (R25). -/
  found : Bool
  /-- `STATUS.FAULT` (R26). -/
  fault : Bool
  /-- The kind whose code `CAUSE` holds, none for code 0 (R27, R231). -/
  cause : Option Kind
  /-- `FCMD` (R28). -/
  fcmd : Word
  /-- The response pulse of the last step, none when that step answered no command (R34, R35; DESIGN CHOICE, log 9,
  safe). -/
  rsp : Option Response
  /-- The host's moves still to come, oldest first (R24, R36; DESIGN CHOICE, log 3, safe). -/
  host : List HostMove
  deriving DecidableEq, Repr

/-- The state after reset of a block with constants `code`, its host having `host` still to do (R33, R260). -/
def State.resetOf (code : CodeParams) (host : List HostMove) : State where
  code := code
  live := true
  v := Vector.replicate 16 []
  x := Vector.replicate 16 0
  found := false
  fault := false
  cause := none
  fcmd := 0
  rsp := none
  host := host

/-- The machine right after reset. The parameter set is the spec's example A with `LMAX = 64`: the spec leaves `n`, `g`,
`p` and `LMAX` open (R5; DESIGN CHOICE, log 2, unsafe). -/
def State.reset : State := State.resetOf Config.codeA []

end Sys2Proof.Machine
end

