-- ==== Sys2Proof/Machine/CyclicCode.lean ====
section
/-! DEFINITION. The functions of the cyclic code: derived constants, legality, the ROM, syndromes and the scan of the
error locators (`43_cyclic_code.md` R170 to R179; `44_error_locator.md` R200 to R202). -/

namespace Sys2Proof.Machine

/-- `r = deg(g)` (R170). -/
def codeR (c : CodeParams) : Nat := c.g.length - 1

/-- `k = n - r`, the message length (R170). -/
def codeK (c : CodeParams) : Nat := c.n - codeR c

/-- `t = (k - 1) div 2`, the random-error correction radius (R170). -/
def codeT (c : CodeParams) : Nat := (codeK c - 1) / 2

/-- Whether `(n, g, p)` with `LMAX` can be built (R171): `g` trimmed and not zero, `0 < r < n`, `0 <= p <= k`,
`n <= LMAX <= 2^31 - 1`. -/
def legal (c : CodeParams) : Bool :=
  trim c.g == c.g && c.g != [] && decide (0 < codeR c) && decide (codeR c < c.n) && decide (c.p ≤ codeK c)
    && decide (c.n ≤ c.lmax) && decide (c.lmax ≤ 2 ^ 31 - 1)

/-- `BT`, the content of the burst-error syndrome table ROM (R173), as a list that may hold a member twice; only
membership is read (R31). -/
def burstTable (c : CodeParams) : List BitVector :=
  (gen c.p).flatMap fun w =>
    (List.range c.n).map fun (a : Nat) => rotR (w ++ zeros (codeK c - c.p)) a

/-- `RomMember(w)` (R174). -/
def romMember (c : CodeParams) (w : BitVector) : Bool := (burstTable c).contains w

/-- `inBT(s)`, the membership test for a syndrome; it raises `LengthTooShort` when `len(s) > k` (R174). -/
def inBT (c : CodeParams) (s : Poly) : Except Kind Bool :=
  if codeK c < s.length then .error .lengthTooShort else .ok (romMember c (toWord s (codeK c)))

/-- `synd(w)`, the syndrome of a word (R178). -/
def syndrome (c : CodeParams) (w : BitVector) : Poly := prem (poly w) c.g

/-- `synr(s, i)`, the syndrome after `i` cyclic shifts (R179). -/
def shiftedSyndrome (c : CodeParams) (s : Poly) (i : Nat) : Poly := prem (pmul (mono i) s) c.g

/-- The scan over a list of rotation amounts (R200, R201): the first amount whose shifted syndrome is accepted gives the
located pattern; a fault of the test ends the scan (R202). -/
def scan (c : CodeParams) (accept : Poly → Except Kind Bool) (rem : Poly) : List Nat → Except Kind (Option BitVector)
  | [] => .ok none
  | i :: later =>
    match accept (shiftedSyndrome c rem i) with
    | .error k => .error k
    | .ok true => .ok (some (rotR (toWord (shiftedSyndrome c rem i) c.n) ((c.n : Int) - i)))
    | .ok false => scan c accept rem later

/-- `locate(w, accept)`, the scan of both error locators over the amounts `0, 1, ..., n-1` (R200); none is the absent
result. -/
def locate (c : CodeParams) (w : BitVector) (accept : Poly → Except Kind Bool) : Except Kind (Option BitVector) :=
  scan c accept (syndrome c w) (List.range c.n)

/-- The weight test of FERR (R202). -/
def weightTest (c : CodeParams) (s : Poly) : Except Kind Bool := .ok (decide (wt s ≤ codeT c))

/-- The table test of FPKG (R202). -/
def tableTest (c : CodeParams) (s : Poly) : Except Kind Bool := inBT c s

end Sys2Proof.Machine
end

