-- ==== Sys2Proof/Machine/Flags.lean ====
section
/-! DEFINITION. The flag, the status and cause registers as words, and the control register map (`10_state.md` R25 to
R29; `60_exceptions.md` R231). -/

namespace Sys2Proof.Machine

/-- The cause code of a fault kind (R231). -/
def Kind.code : Kind → BitVec 4
  | .invalidElement => 1
  | .invalidIndexType => 2
  | .invalidConstructorType => 3
  | .lengthMismatch => 4
  | .lengthTooShort => 5
  | .negativeDegree => 6
  | .typeMismatch => 7
  | .invalidLength => 8
  | .outOfRange => 9
  | .divideByZero => 10
  | .capacity => 11
  | .illegalCommand => 12

/-- The cause code in `CAUSE`, 0 while no fault is recorded (R27, R231). -/
def causeCode : Option Kind → BitVec 4
  | none => 0
  | some k => k.code

/-- A register whose bit 0 is `b` and whose other bits read as zero (R25, R26). -/
def bitWord (b : Bool) : Word := if b then 1 else 0

/-- `FLAGS`: bit 0 is `F` (R25). -/
def State.flagsWord (s : State) : Word := bitWord s.found

/-- `STATUS`: bit 0 is `FAULT` (R26). -/
def State.statusWord (s : State) : Word := bitWord s.fault

/-- `CAUSE`: bits 3 to 0 hold the cause code (R27). -/
def State.causeWord (s : State) : Word := (causeCode s.cause).setWidth 32

/-- The value of a control register, by its number in the map of R29; a number of no register reads as zero, which only
the readout port can ask for (R34). -/
def State.csr (s : State) : Nat → Word
  | 0 => BitVec.ofNat 32 s.code.n
  | 1 => BitVec.ofNat 32 (codeR s.code)
  | 2 => BitVec.ofNat 32 (codeK s.code)
  | 3 => BitVec.ofNat 32 (codeT s.code)
  | 4 => BitVec.ofNat 32 s.code.p
  | 5 => BitVec.ofNat 32 s.code.lmax
  | 6 => s.flagsWord
  | 7 => s.statusWord
  | 8 => s.causeWord
  | 9 => s.fcmd
  | _ => 0

end Sys2Proof.Machine
end

