-- ==== Sys2Proof/Machine/Operands.lean ====
section
/-! DEFINITION. The operand forms: registers read whole and immediates of the command word (`30_encoding.md` R81 to R83). -/

namespace Sys2Proof.Machine

/-- `V[r]` (R10, R20). -/
def State.getV (s : State) (r : VReg) : BitVector := s.v.get r.num

/-- `X[r]` as a 32-bit word (R22). -/
def State.getXWord (s : State) (r : XReg) : Word := s.x.get r.num

/-- `X[r]` as the integer it holds (R9, R22). -/
def State.getX (s : State) (r : XReg) : Int := (s.getXWord r).toInt

/-- The scalar of XLI, `sext_20(imm20)` (R83, R220). -/
def scalarImmediate (imm20 : BitVec 20) : Int := imm20.toInt

/-- The control register number of CSRR, `zext_20(imm20)` (R83, R221). -/
def csrNumber (imm20 : BitVec 20) : Nat := imm20.toNat

/-- The literal of VLIT: element `i` is bit `i` of the immediate, for `0 <= i < len` (R83, R111). -/
def vectorLiteral (len : BitVec 4) (bits : BitVec 16) : BitVector :=
  (List.range len.toNat).map fun i => bits.getLsbD i

/-! ### Which registers a command names -/

/-- The registers a command names, by kind and by use (R21, R84). -/
structure NamedRegs where
  vDests : List VReg
  xDests : List XReg
  vSources : List VReg
  xSources : List XReg
  deriving DecidableEq, Repr

/-- The registers a command's rule names as destinations and as sources. VSET's `rd` is both (R84). -/
def namedRegs : Instr → NamedRegs
  | .xli rd _ => ⟨[], [rd], [], []⟩
  | .csrr rd _ => ⟨[], [rd], [], []⟩
  | .gld rd => ⟨[rd], [], [], []⟩
  | .vzero rd ra => ⟨[rd], [], [], [ra]⟩
  | .vlit rd _ _ => ⟨[rd], [], [], []⟩
  | .vlen rd ra => ⟨[], [rd], [ra], []⟩
  | .vadd rd ra rb => ⟨[rd], [], [ra, rb], []⟩
  | .vget rd ra rb => ⟨[], [rd], [ra], [rb]⟩
  | .vslice rd ra rb rc => ⟨[rd], [], [ra], [rb, rc]⟩
  | .vset rd ra rb => ⟨[rd], [], [rd], [ra, rb]⟩
  | .vcat rd ra rb => ⟨[rd], [], [ra, rb], []⟩
  | .vwt rd ra => ⟨[], [rd], [ra], []⟩
  | .vror rd ra rb => ⟨[rd], [], [ra], [rb]⟩
  | .seq rd ra rb => ⟨[rd], [], [], [ra, rb]⟩
  | .ptrim rd ra => ⟨[rd], [], [ra], []⟩
  | .pmono rd ra => ⟨[rd], [], [], [ra]⟩
  | .pdeg rd ra => ⟨[], [rd], [ra], []⟩
  | .pwt rd ra => ⟨[], [rd], [ra], []⟩
  | .padd rd ra rb => ⟨[rd], [], [ra, rb], []⟩
  | .pmul rd ra rb => ⟨[rd], [], [ra, rb], []⟩
  | .pdivmod rd ra rb rc => ⟨[rd, rc], [], [ra, rb], []⟩
  | .pquo rd ra rb => ⟨[rd], [], [ra, rb], []⟩
  | .prem rd ra rb => ⟨[rd], [], [ra, rb], []⟩
  | .pword rd ra rb => ⟨[rd], [], [ra], [rb]⟩
  | .enc rd ra => ⟨[rd], [], [ra], []⟩
  | .dec rd ra => ⟨[rd], [], [ra], []⟩
  | .synd rd ra => ⟨[rd], [], [ra], []⟩
  | .synr rd ra rb => ⟨[rd], [], [ra], [rb]⟩
  | .btq rd ra => ⟨[], [rd], [ra], []⟩
  | .ferr rd ra => ⟨[rd], [], [ra], []⟩
  | .fpkg rd ra => ⟨[rd], [], [ra], []⟩

end Sys2Proof.Machine
end

