-- ==== Sys2Proof/Machine/Ops.lean ====
section
/-! DEFINITION. The named operations on the state: writing a register, taking a fault (`60_exceptions.md` R236), refusing
a command (R237), answering the host (`10_state.md` R34, R35), reset (`70_reset_and_hazards.md` R260). -/

namespace Sys2Proof.Machine

/-- What a command answers. -/
abbrev Result := Host.Outcome State Fault Refusal

/-! ### Writing registers -/

/-- `V[r] <- v`: length and elements are replaced (R10, R20). -/
def State.setV (s : State) (r : VReg) (v : BitVector) : State := { s with v := s.v.set r.num v }

/-- `X[r] <- z`; every rule that writes a scalar keeps `z` in range (R10, R23). -/
def State.setX (s : State) (r : XReg) (z : Int) : State := { s with x := s.x.set r.num (BitVec.ofInt 32 z) }

/-- `FLAGS.F <- b` (R10, R25). -/
def State.setFound (s : State) (b : Bool) : State := { s with found := b }

/-! ### Taking a fault, and the way back -/

/-- `raise Kind` by the command word `w` (R236): `STATUS.FAULT`, `CAUSE` and `FCMD` are written and nothing else. -/
def State.raise (s : State) (k : Kind) (w : Word) : State := { s with fault := true, cause := some k, fcmd := w }

/-- The command `i` raises `k` (R236): a next state. The command word is `encode i`, the only word that decodes to `i`
(R84, R85). -/
def raiseBy (k : Kind) (i : Instr) (s : State) : Result := .next (s.raise k (encode i))

/-- Reset (R260), the only way out of the faulted state (R238): every register gets its reset value and the constants
stay. -/
def State.resetNow (s : State) : State := State.resetOf s.code s.host

/-! ### Completing a command -/

/-- Steps 6 and 7 of R86 for one vector result of the command `i`: raise `Capacity` when it is longer than `LMAX` (R87),
else write it. -/
def writeVector (i : Instr) (rd : VReg) (v : BitVector) (s : State) : Result :=
  if s.code.lmax < v.length then raiseBy .capacity i s else .next (s.setV rd v)

/-- Steps 6 and 7 of R86 for the two vector results of PDIVMOD (R65, R156): both are written or none. -/
def writeVectors (i : Instr) (rd : VReg) (v : BitVector) (rc : VReg) (u : BitVector) (s : State) : Result :=
  if s.code.lmax < v.length ∨ s.code.lmax < u.length then raiseBy .capacity i s
  else .next ((s.setV rd v).setV rc u)

/-- Step 7 of R86 for a scalar result. -/
def writeScalar (rd : XReg) (z : Int) (s : State) : Result := .next (s.setX rd z)

/-- The end of an error locator (R203, R204): a found pattern is written and `F` set; an absent result clears `F` and
leaves the destination; a fault of the test is raised with nothing written. -/
def writeLocated (i : Instr) (rd : VReg) (located : Except Kind (Option BitVector)) (s : State) : Result :=
  match located with
  | .error k => raiseBy k i s
  | .ok none => .next (s.setFound false)
  | .ok (some e) => if s.code.lmax < e.length then raiseBy .capacity i s else .next ((s.setV rd e).setFound true)

/-! ### The host's side -/

/-- The response pulse of a command (R34 to R37): `rsp_fault` is 1 when it faulted or was refused, which is when
`STATUS.FAULT` is 1 after it, and `rsp_cause` is then `CAUSE`, else 0 (log 9). -/
def State.respond (s : State) : State := { s with rsp := some ⟨s.fault, causeCode s.cause⟩ }

/-- Adds the response to what a command answered. -/
def answer : Result → Result
  | .next s => .next s.respond
  | .fault r => .fault r
  | .refused r => .refused r

/-- `cmd_ready` between two host moves: the block is idle, faulted or not (R35); before the first reset no command may
be offered (R262). -/
def State.cmdReady (s : State) : Bool := s.live

/-- Building a block (R171, R235): for a legal parameter set the block after its reset, else the refusal
`InvalidCodeParameters`. -/
def State.build (c : CodeParams) (host : List HostMove) : Result :=
  if legal c then .next (State.resetOf c host) else .refused .invalidCodeParameters

end Sys2Proof.Machine
end

