-- ==== Sys2Proof/Machine/BitVectorUnit.lean ====
section
/-! DEFINITION. The bit-vector commands VZERO to VROR (`40_bitvector.md` R110 to R119). -/

namespace Sys2Proof.Machine

/-- VZERO (R110). -/
def execVzero (rd : VReg) (ra : XReg) (s : State) : Result :=
  let L := s.getX ra
  if L < 0 then raiseBy .outOfRange (.vzero rd ra) s
  else if (s.code.lmax : Int) < L then raiseBy .capacity (.vzero rd ra) s
  else writeVector (.vzero rd ra) rd (zeros L.toNat) s

/-- VLIT (R111). A one at or above bit `len` makes an illegal command (R85); no word decodes to such a value (log 5). -/
def execVlit (rd : VReg) (len : BitVec 4) (bits : BitVec 16) (s : State) : Result :=
  if (Instr.vlit rd len bits).wellFormed then writeVector (.vlit rd len bits) rd (vectorLiteral len bits) s
  else raiseBy .illegalCommand (.vlit rd len bits) s

/-- VLEN (R112). -/
def execVlen (rd : XReg) (ra : VReg) (s : State) : Result :=
  writeScalar rd (s.getV ra).length s

/-- VADD, the GF(2) bit-vector adder (R113). -/
def execVadd (rd ra rb : VReg) (s : State) : Result :=
  let a := s.getV ra
  let b := s.getV rb
  if a.length ≠ b.length then raiseBy .lengthMismatch (.vadd rd ra rb) s
  else writeVector (.vadd rd ra rb) rd (vadd a b) s

/-- VGET (R114). -/
def execVget (rd : XReg) (ra : VReg) (rb : XReg) (s : State) : Result :=
  let v := s.getV ra
  let i := s.getX rb
  if i < 0 ∨ (v.length : Int) ≤ i then raiseBy .outOfRange (.vget rd ra rb) s
  else writeScalar rd (if v.getD i.toNat false then 1 else 0) s

/-- VSLICE (R115). -/
def execVslice (rd ra : VReg) (rb rc : XReg) (s : State) : Result :=
  let v := s.getV ra
  let lo := s.getX rb
  let hi := s.getX rc
  if lo < 0 ∨ (v.length : Int) < hi ∨ hi < lo then raiseBy .outOfRange (.vslice rd ra rb rc) s
  else writeVector (.vslice rd ra rb rc) rd (slice v lo.toNat hi.toNat) s

/-- VSET (R116): the value is checked before the index. -/
def execVset (rd : VReg) (ra rb : XReg) (s : State) : Result :=
  let v := s.getV rd
  let i := s.getX ra
  let b := s.getX rb
  if b ≠ 0 ∧ b ≠ 1 then raiseBy .invalidElement (.vset rd ra rb) s
  else if i < 0 ∨ (v.length : Int) ≤ i then raiseBy .outOfRange (.vset rd ra rb) s
  else writeVector (.vset rd ra rb) rd (v.set i.toNat (decide (b = 1))) s

/-- VCAT (R117). -/
def execVcat (rd ra rb : VReg) (s : State) : Result :=
  writeVector (.vcat rd ra rb) rd (s.getV ra ++ s.getV rb) s

/-- VWT (R118). -/
def execVwt (rd : XReg) (ra : VReg) (s : State) : Result :=
  writeScalar rd (wt (s.getV ra)) s

/-- VROR (R119). -/
def execVror (rd ra : VReg) (rb : XReg) (s : State) : Result :=
  writeVector (.vror rd ra rb) rd (rotR (s.getV ra) (s.getX rb)) s

end Sys2Proof.Machine
end

