-- ==== Sys2Proof/Machine/CyclicCodeUnit.lean ====
section
/-! DEFINITION. The encoder, the decoder, the syndrome generator and the ROM query (`43_cyclic_code.md` R176, R177, R180
to R182). -/

namespace Sys2Proof.Machine

/-- ENC, the cyclic code encoder: multiplication by `g` (R176; `90_conflicts.md` C1, C2). -/
def execEnc (rd ra : VReg) (s : State) : Result :=
  let m := s.getV ra
  if m.length ≠ codeK s.code then raiseBy .invalidLength (.enc rd ra) s
  else writeVector (.enc rd ra) rd (toWord (pmul (poly m) s.code.g) s.code.n) s

/-- DEC, the cyclic code decoder: the quotient by `g`, the remainder discarded (R177, R184). -/
def execDec (rd ra : VReg) (s : State) : Result :=
  let w := s.getV ra
  if w.length ≠ s.code.n then raiseBy .invalidLength (.dec rd ra) s
  else writeVector (.dec rd ra) rd (toWord (pquo (poly w) s.code.g) (codeK s.code)) s

/-- SYND (R180). -/
def execSynd (rd ra : VReg) (s : State) : Result :=
  let w := s.getV ra
  if w.length ≠ s.code.n then raiseBy .invalidLength (.synd rd ra) s
  else writeVector (.synd rd ra) rd (syndrome s.code w) s

/-- SYNR (R181). The product inside is no register write and is not subject to `LMAX` (R87). -/
def execSynr (rd ra : VReg) (rb : XReg) (s : State) : Result :=
  let p := poly (s.getV ra)
  let i := s.getX rb
  if i < 0 then raiseBy .negativeDegree (.synr rd ra rb) s
  else writeVector (.synr rd ra rb) rd (shiftedSyndrome s.code p i.toNat) s

/-- BTQ (R182); the membership test may raise `LengthTooShort` (R174). -/
def execBtq (rd : XReg) (ra : VReg) (s : State) : Result :=
  match inBT s.code (poly (s.getV ra)) with
  | .error k => raiseBy k (.btq rd ra) s
  | .ok b => writeScalar rd (if b then 1 else 0) s

end Sys2Proof.Machine
end

