-- ==== Sys2Proof/Machine/ErrorLocator.lean ====
section
/-! DEFINITION. The error locators FERR and FPKG (`44_error_locator.md` R203, R204). -/

namespace Sys2Proof.Machine

/-- FERR: locate an error by weight threshold (R203). -/
def execFerr (rd ra : VReg) (s : State) : Result :=
  let w := s.getV ra
  if w.length ≠ s.code.n then raiseBy .invalidLength (.ferr rd ra) s
  else writeLocated (.ferr rd ra) rd (locate s.code w (weightTest s.code)) s

/-- FPKG: locate a burst error by table lookup (R204). -/
def execFpkg (rd ra : VReg) (s : State) : Result :=
  let w := s.getV ra
  if w.length ≠ s.code.n then raiseBy .invalidLength (.fpkg rd ra) s
  else writeLocated (.fpkg rd ra) rd (locate s.code w (tableTest s.code)) s

end Sys2Proof.Machine
end

