-- ==== Sys2Proof/Machine/PolynomialUnit.lean ====
section
/-! DEFINITION. The polynomial commands PTRIM to PWORD (`42_polynomial.md` R150 to R159). Every vector source is lifted by
`poly` (R141). -/

namespace Sys2Proof.Machine

/-- PTRIM (R150). -/
def execPtrim (rd ra : VReg) (s : State) : Result :=
  writeVector (.ptrim rd ra) rd (trim (s.getV ra)) s

/-- PMONO (R151). -/
def execPmono (rd : VReg) (ra : XReg) (s : State) : Result :=
  let d := s.getX ra
  if d < 0 then raiseBy .negativeDegree (.pmono rd ra) s
  else if (s.code.lmax : Int) < d + 1 then raiseBy .capacity (.pmono rd ra) s
  else writeVector (.pmono rd ra) rd (mono d.toNat) s

/-- PDEG (R152). -/
def execPdeg (rd : XReg) (ra : VReg) (s : State) : Result :=
  writeScalar rd (deg (poly (s.getV ra))) s

/-- PWT (R153). -/
def execPwt (rd : XReg) (ra : VReg) (s : State) : Result :=
  writeScalar rd (wt (poly (s.getV ra))) s

/-- PADD (R154). -/
def execPadd (rd ra rb : VReg) (s : State) : Result :=
  writeVector (.padd rd ra rb) rd (padd (poly (s.getV ra)) (poly (s.getV rb))) s

/-- PMUL (R155). -/
def execPmul (rd ra rb : VReg) (s : State) : Result :=
  writeVector (.pmul rd ra rb) rd (pmul (poly (s.getV ra)) (poly (s.getV rb))) s

/-- PDIVMOD (R156). Equal destinations make an illegal command (R85, R266); no word decodes to such a value (log 5). -/
def execPdivmod (rd ra rb rc : VReg) (s : State) : Result :=
  let a := poly (s.getV ra)
  let b := poly (s.getV rb)
  if rd = rc then raiseBy .illegalCommand (.pdivmod rd ra rb rc) s
  else if b = [] then raiseBy .divideByZero (.pdivmod rd ra rb rc) s
  else writeVectors (.pdivmod rd ra rb rc) rd (pdivmod a b).1 rc (pdivmod a b).2 s

/-- PQUO (R157). -/
def execPquo (rd ra rb : VReg) (s : State) : Result :=
  let a := poly (s.getV ra)
  let b := poly (s.getV rb)
  if b = [] then raiseBy .divideByZero (.pquo rd ra rb) s
  else writeVector (.pquo rd ra rb) rd (pquo a b) s

/-- PREM (R158). -/
def execPrem (rd ra rb : VReg) (s : State) : Result :=
  let a := poly (s.getV ra)
  let b := poly (s.getV rb)
  if b = [] then raiseBy .divideByZero (.prem rd ra rb) s
  else writeVector (.prem rd ra rb) rd (prem a b) s

/-- PWORD (R159). -/
def execPword (rd ra : VReg) (rb : XReg) (s : State) : Result :=
  let a := poly (s.getV ra)
  let L := s.getX rb
  if L < (a.length : Int) then raiseBy .lengthTooShort (.pword rd ra rb) s
  else if (s.code.lmax : Int) < L then raiseBy .capacity (.pword rd ra rb) s
  else writeVector (.pword rd ra rb) rd (toWord a L.toNat) s

end Sys2Proof.Machine
end

