-- ==== Sys2Proof/Machine/SequenceUnit.lean ====
section
/-! DEFINITION. The sequence generator's command SEQ (`41_seqgen.md` R132). -/

namespace Sys2Proof.Machine

/-- SEQ (R132). For `L >= 31` every position a scalar register can hold is below `2^L`. -/
def execSeq (rd : VReg) (ra rb : XReg) (s : State) : Result :=
  let L := s.getX ra
  let j := s.getX rb
  if L < 0 ∨ j < 0 then raiseBy .outOfRange (.seq rd ra rb) s
  else if L ≤ 30 ∧ (2 : Int) ^ L.toNat ≤ j then raiseBy .outOfRange (.seq rd ra rb) s
  else if (s.code.lmax : Int) < L then raiseBy .capacity (.seq rd ra rb) s
  else writeVector (.seq rd ra rb) rd (seq L.toNat j.toNat) s

end Sys2Proof.Machine
end

