-- ==== Sys2Proof/Machine/System.lean ====
section
/-! DEFINITION. The system commands XLI, CSRR, GLD (`45_system.md`). -/

namespace Sys2Proof.Machine

/-- XLI (R220). -/
def execXli (rd : XReg) (imm20 : BitVec 20) (s : State) : Result :=
  writeScalar rd (scalarImmediate imm20) s

/-- CSRR (R221). A number above 9 is an illegal command (R29, R85); no word decodes to such a value (log 5). -/
def execCsrr (rd : XReg) (imm20 : BitVec 20) (s : State) : Result :=
  if csrNumber imm20 ≤ 9 then writeScalar rd (s.csr (csrNumber imm20)).toInt s
  else raiseBy .illegalCommand (.csrr rd imm20) s

/-- GLD (R222). -/
def execGld (rd : VReg) (s : State) : Result :=
  writeVector (.gld rd) rd s.code.g s

end Sys2Proof.Machine
end

