-- ==== Sys2Proof/Machine/Dispatch.lean ====
section
/-! DEFINITION. One arm per command: steps 3 to 7 of `30_encoding.md` R86. Step 1, the refusal while a fault is recorded,
and step 2, decoding, stand before it in `Sys2Proof/Machine/Fetch.lean` (log 4). -/

namespace Sys2Proof.Machine

def exec (i : Instr) (s : State) : Host.Outcome State Fault Refusal :=
  match i with
  | .xli rd imm20 => Sys2Proof.Machine.execXli rd imm20 s
  | .csrr rd imm20 => Sys2Proof.Machine.execCsrr rd imm20 s
  | .gld rd => Sys2Proof.Machine.execGld rd s
  | .vzero rd ra => Sys2Proof.Machine.execVzero rd ra s
  | .vlit rd len bits => Sys2Proof.Machine.execVlit rd len bits s
  | .vlen rd ra => Sys2Proof.Machine.execVlen rd ra s
  | .vadd rd ra rb => Sys2Proof.Machine.execVadd rd ra rb s
  | .vget rd ra rb => Sys2Proof.Machine.execVget rd ra rb s
  | .vslice rd ra rb rc => Sys2Proof.Machine.execVslice rd ra rb rc s
  | .vset rd ra rb => Sys2Proof.Machine.execVset rd ra rb s
  | .vcat rd ra rb => Sys2Proof.Machine.execVcat rd ra rb s
  | .vwt rd ra => Sys2Proof.Machine.execVwt rd ra s
  | .vror rd ra rb => Sys2Proof.Machine.execVror rd ra rb s
  | .seq rd ra rb => Sys2Proof.Machine.execSeq rd ra rb s
  | .ptrim rd ra => Sys2Proof.Machine.execPtrim rd ra s
  | .pmono rd ra => Sys2Proof.Machine.execPmono rd ra s
  | .pdeg rd ra => Sys2Proof.Machine.execPdeg rd ra s
  | .pwt rd ra => Sys2Proof.Machine.execPwt rd ra s
  | .padd rd ra rb => Sys2Proof.Machine.execPadd rd ra rb s
  | .pmul rd ra rb => Sys2Proof.Machine.execPmul rd ra rb s
  | .pdivmod rd ra rb rc => Sys2Proof.Machine.execPdivmod rd ra rb rc s
  | .pquo rd ra rb => Sys2Proof.Machine.execPquo rd ra rb s
  | .prem rd ra rb => Sys2Proof.Machine.execPrem rd ra rb s
  | .pword rd ra rb => Sys2Proof.Machine.execPword rd ra rb s
  | .enc rd ra => Sys2Proof.Machine.execEnc rd ra s
  | .dec rd ra => Sys2Proof.Machine.execDec rd ra s
  | .synd rd ra => Sys2Proof.Machine.execSynd rd ra s
  | .synr rd ra rb => Sys2Proof.Machine.execSynr rd ra rb s
  | .btq rd ra => Sys2Proof.Machine.execBtq rd ra s
  | .ferr rd ra => Sys2Proof.Machine.execFerr rd ra s
  | .fpkg rd ra => Sys2Proof.Machine.execFpkg rd ra s

end Sys2Proof.Machine
end

