-- ==== Sys2Proof/Machine/Fetch.lean ====
section
/-! DEFINITION. What a step does before a command executes: the host's next move, the refusal while a fault is recorded and
decoding (`30_encoding.md` R86 steps 1 and 2; `10_state.md` R35, R36). -/

namespace Sys2Proof.Machine

/-- What comes of the host's next move: an answer at once, or a command to execute in a state. -/
inductive Fetched where
  | done (r : Result)
  | run (i : Instr) (s : State)

/-- A command word taken from the port by an idle block: refused without decoding while `STATUS.FAULT` is 1 (R86 step 1,
R237), `IllegalCommand` when it is no legal command (R86 step 2, R85), else its command to execute. -/
def take (w : Word) (s : State) : Fetched :=
  if s.fault then .done (answer (.next s))
  else
    match decode w with
    | .error _ => .done (answer (.next (s.raise .illegalCommand w)))
    | .ok i => .run i s

/-- The host's next move. Nothing offered: the block idles and the response pulse ends. A parameter set that is not legal
is no block (R171, R235); a command before the first reset has no meaning (R262). A reset after a command word is taken and
before it is answered abandons the command (R261). -/
def fetch (s : State) : Fetched :=
  if legal s.code then
    match s.host with
    | [] => .done (.next { s with rsp := none })
    | .reset :: later => .done (.next (State.resetNow { s with host := later }))
    | .command w :: later =>
      if s.cmdReady then take w { s with host := later } else .done (.refused .beforeFirstReset)
    | .commandThenReset _ :: later =>
      if s.cmdReady then .done (.next (State.resetNow { s with host := later }))
      else .done (.refused .beforeFirstReset)
  else .done (.refused .invalidCodeParameters)

/-- The state with a command word offered next, before the host's other moves. -/
def State.offer (s : State) (w : Word) : State := { s with host := .command w :: s.host }

end Sys2Proof.Machine
end

