-- ==== Sys2Proof/Machine/Step.lean ====
section
/-! DEFINITION. One step of the machine: the host's next move, carried out whole (`20_memory.md` R65, R66). -/

namespace Sys2Proof.Machine

/-- One step: the host's next move is answered at once, or its command executes and is answered (R86). -/
def step (s : State) : Host.Outcome State Fault Refusal :=
  match fetch s with
  | .done r => r
  | .run i s' => answer (exec i s')

/-- The state with the command of a table word offered as the host's next move (log 3): the block fetches nothing from a
memory (R68), it takes the word the host offers. -/
def State.withFetchWord (s : State) (nbits w : Nat) : State := s.offer (tableWord nbits w)

end Sys2Proof.Machine
end

