-- ==== Sys2Proof/Machine/Ports.lean ====
section
/-! DEFINITION. The output ports as functions of the state (`10_state.md` R34 to R36). Reading has no side effect
(`20_memory.md` R64). What the readout port shows while a command is in progress is not represented: the model's states
are those between commands (R268; log 12, safe). -/

namespace Sys2Proof.Machine

/-- The one-bit outputs and the response port (R34). -/
structure Outputs where
  cmdReady : Bool
  rspValid : Bool
  rspFault : Bool
  rspCause : BitVec 4
  fault : Bool
  found : Bool
  deriving DecidableEq, Repr

/-- The levels of the outputs (R34, R35); without a response pulse `rsp_fault` and `rsp_cause` carry no meaning and are
shown as 0. -/
def State.outputs (s : State) : Outputs where
  cmdReady := s.cmdReady
  rspValid := s.rsp.isSome
  rspFault := match s.rsp with | some r => r.fault | none => false
  rspCause := match s.rsp with | some r => r.cause | none => 0
  fault := s.fault
  found := s.found

/-- What the readout port shows for one selection (R34); `rd_vec` is `LMAX` bits wide. -/
structure Readout (lmax : Nat) where
  len : BitVec 32
  vec : BitVec lmax
  scalar : BitVec 32
  deriving DecidableEq, Repr

/-- Element `i` of a vector on bit `i`, bits at and above the length zero (R34, R62). -/
def vectorBits (lmax : Nat) (v : BitVector) : BitVec lmax :=
  (BitVec.ofBoolListLE v).setWidth lmax

/-- A vector selection: its length and elements; `rd_scalar` is 0 (R34). -/
def Readout.ofVector (lmax : Nat) (v : BitVector) : Readout lmax := ⟨BitVec.ofNat 32 v.length, vectorBits lmax v, 0⟩

/-- A scalar selection: `rd_len` and `rd_vec` are 0 (R34). -/
def Readout.ofScalar (lmax : Nat) (w : Word) : Readout lmax := ⟨0, 0, w⟩

/-- The readout port for `rd_sel = sel` (R34): 0 to 15 a vector register, 16 to 31 a scalar register, 32 to 41 a control
register, 42 the constant `g`, other values zero. -/
def State.readout (s : State) (sel : BitVec 6) : Readout s.code.lmax :=
  if h : sel.toNat < 16 then .ofVector s.code.lmax (s.getV ⟨⟨sel.toNat, h⟩⟩)
  else if h : sel.toNat - 16 < 16 then .ofScalar s.code.lmax (s.getXWord ⟨⟨sel.toNat - 16, h⟩⟩)
  else if sel.toNat ≤ 41 then .ofScalar s.code.lmax (s.csr (sel.toNat - 32))
  else if sel.toNat = 42 then .ofVector s.code.lmax s.code.g
  else ⟨0, 0, 0⟩

end Sys2Proof.Machine
end

