-- ==== Sys2Proof/Safety.lean ====
section
/-! DEFINITION. What statements are written in: the ranges of the registers, the invariant of a run, and a run that has not
faulted. -/

namespace Sys2Proof.Machine

/-- The block exists and every vector register holds at most `LMAX` bits (R20, R171). -/
abbrev State.Bounded (s : State) : Prop :=
  legal s.code = true ∧ ∀ i : Fin 16, (s.getV ⟨i⟩).length ≤ s.code.lmax

/-- Whether a fault kind can be recorded at all (R233). -/
def Kind.canOccur : Kind → Bool
  | .invalidIndexType => false
  | .invalidConstructorType => false
  | .typeMismatch => false
  | .invalidElement => true
  | .lengthMismatch => true
  | .lengthTooShort => true
  | .negativeDegree => true
  | .invalidLength => true
  | .outOfRange => true
  | .divideByZero => true
  | .capacity => true
  | .illegalCommand => true

/-- The fault record: `CAUSE` and `FCMD` are 0 while `STATUS.FAULT` is 0, and with it 1 `CAUSE` holds a kind that can
occur (R26 to R28, R233). -/
def State.recordOk (s : State) : Bool :=
  match s.cause with
  | none => !s.fault && s.fcmd == 0
  | some k => s.fault && k.canOccur

/-- The invariant of every run: the parameter set is legal, and from the first reset on the registers are in range and
the fault record is consistent. Before the first reset the registers are unspecified (R262). -/
abbrev State.Inv (s : State) : Prop :=
  legal s.code = true ∧ (s.live = true → s.Bounded ∧ s.recordOk = true)

/-- A state of a run that counts as completed so far: no fault has been recorded (R237). -/
def State.unfaulted (s : State) : Bool := !s.fault

/-- A block ready to execute: built, reset, and with no fault recorded. -/
abbrev State.Ready (s : State) : Prop := legal s.code = true ∧ s.live = true ∧ s.fault = false

end Sys2Proof.Machine
end

