-- ==== Sys2Proof/Certificates/Slice0/Obligations.lean ====
section
/-! DEFINITION. The statements for the provers. Each docstring names the rules of the spec it formalises. Words used: `s` a
state, `t` the state after; `exec i s` is steps 3 to 7 of `30_encoding.md` R86 for the command `i`, which a step reaches only
while `STATUS.FAULT` is 0 (steps 1 and 2; log 4); a command "completes" when `exec` answers a next state that is no fault
entry; `s.raise k w` is the fault entry of `60_exceptions.md` R236. -/

open Sys2Proof Sys2Proof.Machine

/-! ### Encoding (`30_encoding.md`) -/

/-- Words written out in the spec decode to the command they stand for (R89; `95_test_vectors.md` section 8). -/
def Obligations.DecodesTheSpecsWords : Prop :=
  decode 0x01000007 = .ok (.xli ⟨0⟩ 7) ∧ decode 0x011FFFFF = .ok (.xli ⟨1⟩ 0xFFFFF) ∧
  decode 0x02400002 = .ok (.csrr ⟨4⟩ 2) ∧ decode 0x11040009 = .ok (.vlit ⟨0⟩ 4 9) ∧
  decode 0x13312000 = .ok (.vadd ⟨3⟩ ⟨1⟩ ⟨2⟩) ∧ decode 0x20001000 = .ok (.seq ⟨0⟩ ⟨0⟩ ⟨1⟩) ∧
  decode 0x36430500 = .ok (.pdivmod ⟨4⟩ ⟨3⟩ ⟨0⟩ ⟨5⟩) ∧ decode 0x43218000 = .ok (.synr ⟨2⟩ ⟨1⟩ ⟨8⟩) ∧
  decode 0x45430000 = .ok (.ferr ⟨4⟩ ⟨3⟩)

/-- Decoding the word of a well-formed command gives the command, for all 31 commands and every operand (R80 to R84). -/
def Obligations.DecodeOfEncodeIsTheCommand : Prop :=
  ∀ i : Instr, i.wellFormed = true → decode (encode i) = .ok i

/-- A word that decodes is the word of the command it decodes to, and that command meets its row's extra condition: no
bit of a legal word is ignored (R84, R85). -/
def Obligations.EncodeOfDecodeIsTheWord : Prop :=
  ∀ (w : Word) (i : Instr), decode w = .ok i → encode i = w ∧ i.wellFormed = true

/-- R85, with the opcode map of R84: a word decodes to a command exactly when a row of the table accepts it, that row is
unique and has the command's mnemonic; any other word offered to a ready block raises `IllegalCommand` and changes nothing
else but the host's queue and the response; the all-zero and the all-ones word are illegal. -/
def Obligations.IllegalWordsRaiseIllegalCommand : Prop :=
  (∀ (w : Word) (i : Instr), decode w = .ok i → ∃ r ∈ opcodeMap, r.accepts w = true ∧ r.mnemonic = i.mnemonic) ∧
  (∀ (w : Word), ∀ r ∈ opcodeMap, r.accepts w = true → ∃ i, decode w = .ok i ∧ i.mnemonic = r.mnemonic) ∧
  (∀ (w : Word), ∀ r ∈ opcodeMap, ∀ r' ∈ opcodeMap, r.accepts w = true → r'.accepts w = true → r = r') ∧
  (∀ (s : State) (w : Word) (later : List HostMove), s.Ready → s.host = .command w :: later →
    (∀ r ∈ opcodeMap, r.accepts w = false) →
    step s = .next { s with fault := true, cause := some .illegalCommand, fcmd := w, rsp := some ⟨true, 12⟩,
                            host := later }) ∧
  (∀ r ∈ opcodeMap, r.accepts 0 = false ∧ r.accepts 0xFFFFFFFF = false)

/-! ### A step (`30_encoding.md` R86, `10_state.md` R35, `60_exceptions.md` R237) -/

/-- When the word the host offers decodes to `i`, a step of a ready block is `exec i` on the state with the word taken off
the host's queue (the model's own field, log 3), answered with a response; and `withFetchWord`, the model's way of offering
a word of the opcode table, makes the very next step run it. -/
def Obligations.StepRunsTheDecodedCommand : Prop :=
  (∀ (s : State) (w : Word) (i : Instr) (later : List HostMove),
    s.Ready → s.host = .command w :: later → decode w = .ok i →
    step s = answer (exec i { s with host := later })) ∧
  (∀ (s : State) (w : Nat) (i : Instr), s.Ready → decodeTableWord 32 w = some i →
    step (s.withFetchWord 32 w) = answer (exec i s))

/-- R237: while `STATUS.FAULT` is 1 every word offered, legal or not, is taken and refused: nothing changes but the host's
queue and the response, which carries `rsp_fault = 1` and `rsp_cause = CAUSE`; every readout stays as it was. -/
def Obligations.FaultedBlockRefusesEveryWord : Prop :=
  ∀ (s : State) (w : Word) (later : List HostMove),
    legal s.code = true → s.live = true → s.fault = true → s.host = .command w :: later →
    step s = .next { s with rsp := some ⟨true, causeCode s.cause⟩, host := later } ∧
    ∀ sel, State.readout { s with rsp := some ⟨true, causeCode s.cause⟩, host := later } sel = s.readout sel

/-- R237, R238: a faulted block that is offered any number of words and no reset keeps every register, the flag and the
fault record for ever; only the host's queue and the response change. -/
def Obligations.FaultLastsUntilReset : Prop :=
  ∀ (k : Nat) (s : State) (words : List Word),
    legal s.code = true → s.live = true → s.fault = true → s.host = words.map .command →
    ∃ t, Host.Core.run core k s = .next t ∧ t.v = s.v ∧ t.x = s.x ∧ t.found = s.found ∧ t.fault = true ∧
      t.cause = s.cause ∧ t.fcmd = s.fcmd ∧ t.code = s.code ∧ t.live = true

/-- R236 and the codes of R231: `raise` sets `STATUS.FAULT`, `CAUSE` and `FCMD` and writes no vector register, no scalar
register and no flag; the response then carries `rsp_fault = 1` and the cause code. -/
def Obligations.RaiseWritesOnlyTheFaultRecord : Prop :=
  (∀ (s : State) (k : Kind) (w : Word),
    (s.raise k w).fault = true ∧ (s.raise k w).causeWord = k.code.setWidth 32 ∧ (s.raise k w).fcmd = w ∧
    (∀ r, (s.raise k w).getV r = s.getV r) ∧ (∀ r, (s.raise k w).getX r = s.getX r) ∧
    (s.raise k w).found = s.found ∧ (s.raise k w).code = s.code ∧ (s.raise k w).host = s.host ∧
    answer (.next (s.raise k w)) = .next { s.raise k w with rsp := some ⟨true, k.code⟩ }) ∧
  [Kind.invalidElement, .invalidIndexType, .invalidConstructorType, .lengthMismatch, .lengthTooShort, .negativeDegree,
    .typeMismatch, .invalidLength, .outOfRange, .divideByZero, .capacity, .illegalCommand].map (fun k => k.code.toNat)
    = [1, 2, 3, 4, 5, 6, 7, 8, 9, 10, 11, 12]

/-- Every command word taken by a block that has been reset is answered: the step gives a next state whose response is
`rsp_fault = STATUS.FAULT`, and `rsp_cause` is `CAUSE`, which is 0 when `rsp_fault` is 0 (R34, R35, R249, R269). -/
def Obligations.EveryCommandIsAnswered : Prop :=
  (∀ (i : Instr) (s : State), ∃ t, exec i s = .next t) ∧
  (∀ (s : State) (w : Word) (later : List HostMove), s.Inv → s.live = true → s.host = .command w :: later →
    ∃ t, step s = .next t ∧ t.host = later ∧ t.outputs.rspValid = true ∧ t.outputs.rspFault = t.fault ∧
      t.outputs.rspCause = causeCode t.cause ∧ (t.fault = false → t.outputs.rspCause = 0))

/-! ### Reset and the host (`70_reset_and_hazards.md`, `10_state.md`) -/

/-- R260, R33: a step whose host move is reset leaves exactly the reset state, from every state of a block, faulted or
not, also before the first reset; the constants are unchanged. -/
def Obligations.ResetGivesTheResetState : Prop :=
  ∀ (s : State) (later : List HostMove), legal s.code = true → s.host = .reset :: later →
    ∃ t, step s = .next t ∧ (∀ r, t.getV r = []) ∧ (∀ r, t.getX r = 0) ∧ t.found = false ∧ t.fault = false ∧
      t.cause = none ∧ t.causeWord = 0 ∧ t.fcmd = 0 ∧ t.code = s.code

/-- R261: a command taken and not yet answered when `rst` is sampled 1 is abandoned: whatever the word, the state is the
reset state, no response is given, and the next word can be taken. -/
def Obligations.ResetAbandonsTheCommand : Prop :=
  ∀ (s : State) (w : Word) (later : List HostMove), legal s.code = true → s.live = true →
    s.host = .commandThenReset w :: later →
    step s = .next (State.resetOf s.code later) ∧ (State.resetOf s.code later).rsp = none ∧
      (State.resetOf s.code later).cmdReady = true

/-- The steps the spec gives no meaning (model's names, log 6 and log 7): a command offered before the first reset (R262),
and a parameter set that is not legal, which has no block (R171, R235). With nothing offered a block idles and only the
response pulse ends (log 3). -/
def Obligations.StepsWithoutACommand : Prop :=
  (∀ (s : State) (w : Word) (later : List HostMove), legal s.code = true → s.live = false →
    s.host = .command w :: later → step s = .refused .beforeFirstReset) ∧
  (∀ s : State, legal s.code = false → step s = .refused .invalidCodeParameters) ∧
  (∀ (c : CodeParams) (h : List HostMove),
    State.build c h = if legal c then .next (State.resetOf c h) else .refused .invalidCodeParameters) ∧
  (∀ s : State, legal s.code = true → s.host = [] → step s = .next { s with rsp := none })

/-- The readout port (R34): selections 0 to 15, 16 to 31, 32 to 41, 42 and the rest. -/
def Obligations.ReadoutShowsTheSelection : Prop :=
  ∀ s : State,
    (∀ r : VReg, ∀ sel : BitVec 6, sel.toNat = r.num.val →
      (s.readout sel).len = BitVec.ofNat 32 (s.getV r).length ∧ (s.readout sel).scalar = 0 ∧
      ∀ i, i < s.code.lmax → (s.readout sel).vec.getLsbD i = (s.getV r).getD i false) ∧
    (∀ r : XReg, ∀ sel : BitVec 6, sel.toNat = 16 + r.num.val →
      s.readout sel = ⟨0, 0, s.getXWord r⟩) ∧
    (∀ m : Nat, m ≤ 9 → ∀ sel : BitVec 6, sel.toNat = 32 + m → s.readout sel = ⟨0, 0, s.csr m⟩) ∧
    (∀ sel : BitVec 6, sel.toNat = 42 →
      (s.readout sel).len = BitVec.ofNat 32 s.code.g.length ∧ (s.readout sel).scalar = 0 ∧
      ∀ i, i < s.code.lmax → (s.readout sel).vec.getLsbD i = s.code.g.getD i false) ∧
    (∀ sel : BitVec 6, 42 < sel.toNat → s.readout sel = ⟨0, 0, 0⟩)

/-! ### Rules of the whole machine -/

/-- The state after reset meets the invariant of `Sys2Proof/Safety.lean`, for the model's parameter set (log 2) and for
every legal one. -/
def Obligations.ResetMeetsTheInvariant : Prop :=
  State.reset.Inv ∧ ∀ (c : CodeParams) (h : List HostMove), legal c = true → (State.resetOf c h).Inv

/-- Every step keeps the invariant: the parameter set stays legal and, from the first reset on, no vector register ever
holds more than `LMAX` bits (R20), `CAUSE` and `FCMD` are 0 while `STATUS.FAULT` is 0 (R26 to R28), and a recorded cause is
one that can occur (R233). -/
def Obligations.StepKeepsTheInvariant : Prop :=
  ∀ s t : State, s.Inv → step s = .next t → t.Inv

/-- No step changes a constant of the block or the content of the ROM (R30, R31, R37, R70). -/
def Obligations.ConstantsNeverChange : Prop :=
  ∀ s t : State, step s = .next t →
    t.code = s.code ∧ ∀ w, romMember t.code w = romMember s.code w

/-- The frame of every command. A next state of `exec i` differs from the state before only as R21, R22, R25, R65 and R236
allow: a vector register that `i` does not name as a destination, a scalar register it does not name as a destination, and
the flag unless `i` is FERR or FPKG, are unchanged; the constants, the host's queue and the response are unchanged; and
either the fault record is unchanged, or nothing but the fault record changed. There is no memory (R60). -/
def Obligations.CommandsChangeOnlyWhatTheyName : Prop :=
  ∀ (i : Instr) (s t : State), exec i s = .next t →
    (∀ r, r ∉ (namedRegs i).vDests → t.getV r = s.getV r) ∧
    (∀ r, r ∉ (namedRegs i).xDests → t.getXWord r = s.getXWord r) ∧
    (i.mnemonic ≠ "FERR" → i.mnemonic ≠ "FPKG" → t.found = s.found) ∧
    t.code = s.code ∧ t.live = s.live ∧ t.host = s.host ∧ t.rsp = s.rsp ∧
    ((t.fault = s.fault ∧ t.cause = s.cause ∧ t.fcmd = s.fcmd) ∨ ∃ k, t = s.raise k (encode i))

/-- A command's effect depends only on the registers it names as sources, the constants, and (for CSRR) the flag and the
fault record (R21, R32, R86): from two states that agree on those, `exec i` leaves the same flag and fault record and the
same value in every destination, unless it leaves that destination unwritten in both. -/
def Obligations.OnlyNamedSourcesMatter : Prop :=
  ∀ (i : Instr) (s s' t t' : State), s.code = s'.code →
    (∀ r ∈ (namedRegs i).vSources, s.getV r = s'.getV r) →
    (∀ r ∈ (namedRegs i).xSources, s.getXWord r = s'.getXWord r) →
    s.found = s'.found → s.fault = s'.fault → s.cause = s'.cause → s.fcmd = s'.fcmd →
    exec i s = .next t → exec i s' = .next t' →
    t.found = t'.found ∧ t.fault = t'.fault ∧ t.cause = t'.cause ∧ t.fcmd = t'.fcmd ∧
    (∀ r ∈ (namedRegs i).vDests, t.getV r = t'.getV r ∨ (t.getV r = s.getV r ∧ t'.getV r = s'.getV r)) ∧
    (∀ r ∈ (namedRegs i).xDests,
      t.getXWord r = t'.getXWord r ∨ (t.getXWord r = s.getXWord r ∧ t'.getXWord r = s'.getXWord r))

/-- R87: from a state whose registers are in range only VZERO, VCAT, SEQ, PMONO, PMUL, PWORD, and VLIT on a block with
`LMAX < 15`, can raise `Capacity`; every other command's vector result fits. -/
def Obligations.OnlySevenCommandsRaiseCapacity : Prop :=
  ∀ (i : Instr) (s : State), s.Bounded → s.fault = false →
    exec i s = .next (s.raise .capacity (encode i)) →
    i.mnemonic ∈ ["VZERO", "VCAT", "SEQ", "PMONO", "PMUL", "PWORD"] ∨ (i.mnemonic = "VLIT" ∧ s.code.lmax < 15)

/-- R233: no command writes the causes `InvalidIndexType`, `InvalidConstructorType` or `TypeMismatch`; only VSET writes
`InvalidElement`, and it can. -/
def Obligations.TypeFaultsNeverOccur : Prop :=
  (∃ (i : Instr) (s t : State), s.Inv ∧ s.Ready ∧ exec i s = .next t ∧ t.cause = some .invalidElement) ∧
  ∀ (i : Instr) (s t : State), exec i s = .next t → t.cause ≠ s.cause →
    t.cause ≠ some .invalidIndexType ∧ t.cause ≠ some .invalidConstructorType ∧ t.cause ≠ some .typeMismatch ∧
    (t.cause = some .invalidElement → i.mnemonic = "VSET")

/-- R161: every vector a completed polynomial command other than PWORD writes is trimmed: empty, or with last element 1. -/
def Obligations.PolynomialResultsAreTrimmed : Prop :=
  ∀ (i : Instr) (s t : State),
    i.mnemonic ∈ ["PTRIM", "PMONO", "PADD", "PMUL", "PDIVMOD", "PQUO", "PREM"] →
    exec i s = .next t → t.fault = false →
    ∀ r ∈ (namedRegs i).vDests, t.getV r = [] ∨ (t.getV r).getLast? = some true

/-! ### System commands (`45_system.md`) -/

/-- XLI (R220). -/
def Obligations.XliLoadsTheImmediate : Prop :=
  ∀ (s : State) (rd : XReg) (imm20 : BitVec 20),
    exec (.xli rd imm20) s = .next (s.setX rd imm20.toInt) ∧
    (s.setX rd imm20.toInt).getX rd = imm20.toInt ∧ -524288 ≤ imm20.toInt ∧ imm20.toInt ≤ 524287 ∧
    (encode (.xli rd imm20)).toNat = 0x01 * 2 ^ 24 + rd.num.val * 2 ^ 20 + imm20.toNat

/-- CSRR (R221) over the map of R29; in a block ready to execute `STATUS`, `CAUSE` and `FCMD` read 0; a number above 9 is an
illegal command. -/
def Obligations.CsrrReadsTheControlRegister : Prop :=
  (∀ (s : State) (rd : XReg) (imm20 : BitVec 20) (z : Int), s.Bounded →
    (imm20.toNat, z) ∈ [(0, (s.code.n : Int)), (1, deg s.code.g), (2, s.code.n - deg s.code.g),
      (3, (s.code.n - deg s.code.g - 1) / 2), (4, (s.code.p : Int)), (5, (s.code.lmax : Int)),
      (6, if s.found then 1 else 0), (7, if s.fault then 1 else 0), (8, ((causeCode s.cause).toNat : Int)),
      (9, s.fcmd.toInt)] →
    exec (.csrr rd imm20) s = .next (s.setX rd z) ∧ (s.setX rd z).getX rd = z) ∧
  (∀ (s : State) (rd : XReg) (imm20 : BitVec 20), s.Inv → s.Ready → imm20.toNat ∈ [7, 8, 9] →
    exec (.csrr rd imm20) s = .next (s.setX rd 0) ∧ (s.setX rd 0).getX rd = 0) ∧
  (∀ (rd : XReg) (imm20 : BitVec 20),
    (encode (.csrr rd imm20)).toNat = 0x02 * 2 ^ 24 + rd.num.val * 2 ^ 20 + imm20.toNat) ∧
  (∀ w : Word, opcodeOf w = 0x02 → 9 < (imm20Field w).toNat → decode w = .error .csrNumber)

/-- GLD (R222). -/
def Obligations.GldCopiesTheGenerator : Prop :=
  ∀ (s : State) (rd : VReg), s.Bounded →
    exec (.gld rd) s = .next (s.setV rd s.code.g) ∧ (s.code.g.length : Int) = deg s.code.g + 1 ∧
    (∀ v, ((s.setV rd s.code.g).setV rd v).code = s.code) ∧
    (encode (.gld rd)).toNat = 0x03 * 2 ^ 24 + rd.num.val * 2 ^ 20

/-! ### Bit vectors (`40_bitvector.md`) -/

/-- VZERO (R110). -/
def Obligations.VzeroWritesZeros : Prop :=
  ∀ (s : State) (rd : VReg) (ra : XReg),
    (0 ≤ s.getX ra → s.getX ra ≤ s.code.lmax →
      exec (.vzero rd ra) s = .next (s.setV rd (List.replicate (s.getX ra).toNat false))) ∧
    (s.getX ra < 0 → exec (.vzero rd ra) s = .next (s.raise .outOfRange (encode (.vzero rd ra)))) ∧
    ((s.code.lmax : Int) < s.getX ra → exec (.vzero rd ra) s = .next (s.raise .capacity (encode (.vzero rd ra)))) ∧
    (encode (.vzero rd ra)).toNat = 0x10 * 2 ^ 24 + rd.num.val * 2 ^ 20 + ra.num.val * 2 ^ 16

/-- VLIT (R111): element `i` is bit `i` of the immediate. -/
def Obligations.VlitWritesTheLiteral : Prop :=
  (∀ (s : State) (rd : VReg) (len : BitVec 4) (bits : BitVec 16), (∀ i, len.toNat ≤ i → bits.getLsbD i = false) →
    (len.toNat ≤ s.code.lmax →
      ∃ v, exec (.vlit rd len bits) s = .next (s.setV rd v) ∧ v.length = len.toNat ∧
        ∀ i, i < len.toNat → v[i]? = some (bits.getLsbD i)) ∧
    (s.code.lmax < len.toNat →
      exec (.vlit rd len bits) s = .next (s.raise .capacity (encode (.vlit rd len bits)))) ∧
    (encode (.vlit rd len bits)).toNat = 0x11 * 2 ^ 24 + rd.num.val * 2 ^ 20 + len.toNat * 2 ^ 16 + bits.toNat) ∧
  (∀ (w : Word) (i : Nat), opcodeOf w = 0x11 → (lenField w).toNat ≤ i → i < 16 → (bitsField w).getLsbD i = true →
    decode w = .error .literalBits)

/-- VLEN (R112), VWT (R118), PDEG (R152), PWT (R153): the scalar measures of a vector, which never fault and never wrap.
The weight of a polynomial is that of its vector; the degree is -1 exactly when every element is 0. -/
def Obligations.MeasuresOfAVector : Prop :=
  ∀ (s : State) (rd : XReg) (ra : VReg), s.Bounded →
    (exec (.vlen rd ra) s = .next (s.setX rd (s.getV ra).length) ∧
      (s.setX rd (s.getV ra).length).getX rd = (s.getV ra).length) ∧
    (exec (.vwt rd ra) s = .next (s.setX rd ((s.getV ra).count true)) ∧
      (s.setX rd ((s.getV ra).count true)).getX rd = (s.getV ra).count true) ∧
    (∃ d : Int, exec (.pdeg rd ra) s = .next (s.setX rd d) ∧ (s.setX rd d).getX rd = d ∧ -1 ≤ d ∧
      (∀ i : Nat, d < i → (s.getV ra).getD i false = false) ∧ (0 ≤ d → (s.getV ra)[d.toNat]? = some true)) ∧
    exec (.pwt rd ra) s = .next (s.setX rd ((s.getV ra).count true)) ∧
    (encode (.vlen rd ra)).toNat = 0x12 * 2 ^ 24 + rd.num.val * 2 ^ 20 + ra.num.val * 2 ^ 16 ∧
    (encode (.vwt rd ra)).toNat = 0x18 * 2 ^ 24 + rd.num.val * 2 ^ 20 + ra.num.val * 2 ^ 16 ∧
    (encode (.pdeg rd ra)).toNat = 0x32 * 2 ^ 24 + rd.num.val * 2 ^ 20 + ra.num.val * 2 ^ 16 ∧
    (encode (.pwt rd ra)).toNat = 0x33 * 2 ^ 24 + rd.num.val * 2 ^ 20 + ra.num.val * 2 ^ 16

/-- VADD (R113) with vadd (R100): element-wise exclusive or of two vectors of one length. -/
def Obligations.VaddAddsElementwise : Prop :=
  ∀ (s : State) (rd ra rb : VReg), s.Bounded →
    ((s.getV ra).length = (s.getV rb).length →
      ∃ c, exec (.vadd rd ra rb) s = .next (s.setV rd c) ∧ c.length = (s.getV ra).length ∧
        ∀ i : Nat, c.getD i false = xor ((s.getV ra).getD i false) ((s.getV rb).getD i false)) ∧
    ((s.getV ra).length ≠ (s.getV rb).length →
      exec (.vadd rd ra rb) s = .next (s.raise .lengthMismatch (encode (.vadd rd ra rb)))) ∧
    (encode (.vadd rd ra rb)).toNat
      = 0x13 * 2 ^ 24 + rd.num.val * 2 ^ 20 + ra.num.val * 2 ^ 16 + rb.num.val * 2 ^ 12

/-- VGET (R114): a negative index does not count from the end. -/
def Obligations.VgetReadsOneElement : Prop :=
  ∀ (s : State) (rd : XReg) (ra : VReg) (rb : XReg),
    (∀ (i : Nat) (b : Bool), s.getX rb = i → (s.getV ra)[i]? = some b →
      exec (.vget rd ra rb) s = .next (s.setX rd (if b then 1 else 0)) ∧
      (s.setX rd (if b then 1 else 0)).getX rd = if b then 1 else 0) ∧
    (s.getX rb < 0 ∨ ((s.getV ra).length : Int) ≤ s.getX rb →
      exec (.vget rd ra rb) s = .next (s.raise .outOfRange (encode (.vget rd ra rb)))) ∧
    (encode (.vget rd ra rb)).toNat
      = 0x14 * 2 ^ 24 + rd.num.val * 2 ^ 20 + ra.num.val * 2 ^ 16 + rb.num.val * 2 ^ 12

/-- VSLICE (R115): half-open, no clamping, no negative bounds. -/
def Obligations.VsliceCopiesTheRange : Prop :=
  ∀ (s : State) (rd ra : VReg) (rb rc : XReg), s.Bounded →
    (0 ≤ s.getX rb → s.getX rb ≤ s.getX rc → s.getX rc ≤ (s.getV ra).length →
      ∃ out, exec (.vslice rd ra rb rc) s = .next (s.setV rd out) ∧ (out.length : Int) = s.getX rc - s.getX rb ∧
        ∀ i : Nat, i < out.length → out[i]? = (s.getV ra)[(s.getX rb).toNat + i]?) ∧
    (s.getX rb < 0 ∨ ((s.getV ra).length : Int) < s.getX rc ∨ s.getX rc < s.getX rb →
      exec (.vslice rd ra rb rc) s = .next (s.raise .outOfRange (encode (.vslice rd ra rb rc)))) ∧
    (encode (.vslice rd ra rb rc)).toNat
      = 0x15 * 2 ^ 24 + rd.num.val * 2 ^ 20 + ra.num.val * 2 ^ 16 + rb.num.val * 2 ^ 12 + rc.num.val * 2 ^ 8

/-- VSET (R116): the value is checked before the index; one element changes, the length never does. -/
def Obligations.VsetSetsOneElement : Prop :=
  ∀ (s : State) (rd : VReg) (ra rb : XReg), s.Bounded →
    (∀ (i : Nat) (b : Bool), s.getX ra = i → i < (s.getV rd).length → (s.getX rb = if b then 1 else 0) →
      exec (.vset rd ra rb) s = .next (s.setV rd ((s.getV rd).set i b))) ∧
    (s.getX rb ≠ 0 → s.getX rb ≠ 1 →
      exec (.vset rd ra rb) s = .next (s.raise .invalidElement (encode (.vset rd ra rb)))) ∧
    (s.getX rb = 0 ∨ s.getX rb = 1 → s.getX ra < 0 ∨ ((s.getV rd).length : Int) ≤ s.getX ra →
      exec (.vset rd ra rb) s = .next (s.raise .outOfRange (encode (.vset rd ra rb)))) ∧
    (encode (.vset rd ra rb)).toNat
      = 0x16 * 2 ^ 24 + rd.num.val * 2 ^ 20 + ra.num.val * 2 ^ 16 + rb.num.val * 2 ^ 12

/-- VCAT (R117). -/
def Obligations.VcatConcatenates : Prop :=
  ∀ (s : State) (rd ra rb : VReg),
    ((s.getV ra).length + (s.getV rb).length ≤ s.code.lmax →
      exec (.vcat rd ra rb) s = .next (s.setV rd (s.getV ra ++ s.getV rb))) ∧
    (s.code.lmax < (s.getV ra).length + (s.getV rb).length →
      exec (.vcat rd ra rb) s = .next (s.raise .capacity (encode (.vcat rd ra rb)))) ∧
    (encode (.vcat rd ra rb)).toNat
      = 0x17 * 2 ^ 24 + rd.num.val * 2 ^ 20 + ra.num.val * 2 ^ 16 + rb.num.val * 2 ^ 12

/-- VROR (R119): every amount is accepted. The last elements move to the front for an amount between 0 and the length,
the first to the end for one between minus the length and 0; amount 0, amounts at or beyond the length in either direction,
and the empty vector give the operand unchanged. -/
def Obligations.VrorRotatesByAnyAmount : Prop :=
  ∀ (s : State) (rd ra : VReg) (rb : XReg), s.Bounded →
    exec (.vror rd ra rb) s = .next (s.setV rd (rotR (s.getV ra) (s.getX rb))) ∧
    (∀ a : Nat, s.getX rb = a → 0 < a → a < (s.getV ra).length →
      exec (.vror rd ra rb) s = .next (s.setV rd
        ((s.getV ra).drop ((s.getV ra).length - a) ++ (s.getV ra).take ((s.getV ra).length - a)))) ∧
    (∀ a : Nat, s.getX rb = -(a : Int) → 0 < a → a < (s.getV ra).length →
      exec (.vror rd ra rb) s = .next (s.setV rd ((s.getV ra).drop a ++ (s.getV ra).take a))) ∧
    (s.getX rb = 0 ∨ ((s.getV ra).length : Int) ≤ s.getX rb ∨ s.getX rb ≤ -((s.getV ra).length : Int) →
      exec (.vror rd ra rb) s = .next (s.setV rd (s.getV ra))) ∧
    (encode (.vror rd ra rb)).toNat
      = 0x19 * 2 ^ 24 + rd.num.val * 2 ^ 20 + ra.num.val * 2 ^ 16 + rb.num.val * 2 ^ 12

/-- `rotR` (R101): the slice construction, and what it says of elements. For `0 < a < L` element `i` goes to index
`(i + a) mod L`; for `-L < a < 0` it goes to `(i + L + a) mod L`, the rotation left by `-a`; for other amounts, and for the
empty vector, nothing moves. -/
def Obligations.RotationFollowsTheSlices : Prop :=
  ∀ (v : BitVector) (a : Int),
    (a = 0 → rotR v a = v) ∧
    (0 < a → rotR v a = v.drop (v.length - min a.toNat v.length) ++ v.take (v.length - min a.toNat v.length)) ∧
    (a < 0 → rotR v a = v.drop (min (-a).toNat v.length) ++ v.take (min (-a).toNat v.length)) ∧
    (rotR v a).length = v.length ∧
    (0 < a → a < v.length → ∀ i : Nat, i < v.length → (rotR v a)[(i + a.toNat) % v.length]? = v[i]?) ∧
    (a < 0 → -(v.length : Int) < a → ∀ i : Nat, i < v.length →
      (rotR v a)[(i + v.length - (-a).toNat) % v.length]? = v[i]?) ∧
    ((v.length : Int) ≤ a ∨ a ≤ -(v.length : Int) → rotR v a = v) ∧ rotR [] a = []

/-- The rotation laws of R121: rotating by the length gives the vector back, and so does rotating by `i` then by `n - i`
for `0 <= i <= n`. -/
def Obligations.RotationsCancel : Prop :=
  ∀ v : BitVector, rotR v v.length = v ∧
    ∀ i : Nat, i ≤ v.length → rotR (rotR v i) ((v.length : Int) - i) = v

/-! ### Sequence generator (`41_seqgen.md`) -/

/-- SEQ (R132): the member of `gen(L)` at position `j`. -/
def Obligations.SeqWritesTheMember : Prop :=
  ∀ (s : State) (rd : VReg) (ra rb : XReg),
    (∀ L j : Nat, s.getX ra = L → s.getX rb = j → j < 2 ^ L → L ≤ s.code.lmax →
      ∃ out, exec (.seq rd ra rb) s = .next (s.setV rd out) ∧ (gen L)[j]? = some out ∧ out.length = L) ∧
    (s.getX ra < 0 ∨ s.getX rb < 0 →
      exec (.seq rd ra rb) s = .next (s.raise .outOfRange (encode (.seq rd ra rb)))) ∧
    (∀ L j : Nat, s.getX ra = L → s.getX rb = j → 2 ^ L ≤ j →
      exec (.seq rd ra rb) s = .next (s.raise .outOfRange (encode (.seq rd ra rb)))) ∧
    (∀ L j : Nat, s.getX ra = L → s.getX rb = j → j < 2 ^ L → s.code.lmax < L →
      exec (.seq rd ra rb) s = .next (s.raise .capacity (encode (.seq rd ra rb)))) ∧
    (encode (.seq rd ra rb)).toNat
      = 0x20 * 2 ^ 24 + rd.num.val * 2 ^ 20 + ra.num.val * 2 ^ 16 + rb.num.val * 2 ^ 12

/-- R131 against R130: `seq(L, j)` is the member of `gen(L)` at position `j`, and its elements are the bits of `j`, the
first unchanged and the later ones complemented. -/
def Obligations.SeqIsTheMemberOfGen : Prop :=
  ∀ L j : Nat, j < 2 ^ L → (gen L)[j]? = some (seq L j) ∧ (seq L j).length = L ∧
    (0 < L → (seq L j)[0]? = some (j.testBit (L - 1))) ∧
    ∀ m, 0 < m → m < L → (seq L j)[m]? = some (!(j.testBit (L - 1 - m)))

/-- R133: `gen(L)` has exactly `2^L` members, all different, and every bit vector of length `L` is one of them. -/
def Obligations.GenIsComplete : Prop :=
  ∀ L : Nat, (gen L).length = 2 ^ L ∧ (gen L).Nodup ∧ ∀ v : BitVector, v ∈ gen L ↔ v.length = L

/-! ### Polynomials (`42_polynomial.md`) -/

/-- PTRIM (R150): the source without its trailing zeros (R140). -/
def Obligations.PtrimDropsTrailingZeros : Prop :=
  ∀ (s : State) (rd ra : VReg), s.Bounded →
    (∃ c m, exec (.ptrim rd ra) s = .next (s.setV rd c) ∧ s.getV ra = c ++ List.replicate m false ∧
      (c = [] ∨ c.getLast? = some true)) ∧
    (encode (.ptrim rd ra)).toNat = 0x30 * 2 ^ 24 + rd.num.val * 2 ^ 20 + ra.num.val * 2 ^ 16

/-- PMONO (R151). -/
def Obligations.PmonoWritesTheMonomial : Prop :=
  ∀ (s : State) (rd : VReg) (ra : XReg),
    (∀ d : Nat, s.getX ra = d → d + 1 ≤ s.code.lmax →
      exec (.pmono rd ra) s = .next (s.setV rd (List.replicate d false ++ [true]))) ∧
    (s.getX ra < 0 → exec (.pmono rd ra) s = .next (s.raise .negativeDegree (encode (.pmono rd ra)))) ∧
    (0 ≤ s.getX ra → (s.code.lmax : Int) < s.getX ra + 1 →
      exec (.pmono rd ra) s = .next (s.raise .capacity (encode (.pmono rd ra)))) ∧
    (encode (.pmono rd ra)).toNat = 0x31 * 2 ^ 24 + rd.num.val * 2 ^ 20 + ra.num.val * 2 ^ 16

/-- PADD (R154): coefficient-wise exclusive or whatever the lengths, then trimmed (R143). -/
def Obligations.PaddAddsCoefficients : Prop :=
  ∀ (s : State) (rd ra rb : VReg), s.Bounded →
    (∃ c, exec (.padd rd ra rb) s = .next (s.setV rd c) ∧ (c = [] ∨ c.getLast? = some true) ∧
      ∀ i : Nat, c.getD i false = xor ((s.getV ra).getD i false) ((s.getV rb).getD i false)) ∧
    (encode (.padd rd ra rb)).toNat
      = 0x34 * 2 ^ 24 + rd.num.val * 2 ^ 20 + ra.num.val * 2 ^ 16 + rb.num.val * 2 ^ 12

/-- PMUL (R155): coefficient `m` of the product is the sum over GF(2) of `a[i] and b[m-i]` (R145); `Capacity` when the
product is longer than `LMAX`. -/
def Obligations.PmulConvolves : Prop :=
  ∀ (s : State) (rd ra rb : VReg), ∃ c : BitVector,
    (c = [] ∨ c.getLast? = some true) ∧
    (∀ m : Nat, c.getD m false =
      (List.range (m + 1)).foldl
        (fun acc i => xor acc ((s.getV ra).getD i false && (s.getV rb).getD (m - i) false)) false) ∧
    (c.length ≤ s.code.lmax → exec (.pmul rd ra rb) s = .next (s.setV rd c)) ∧
    (s.code.lmax < c.length → exec (.pmul rd ra rb) s = .next (s.raise .capacity (encode (.pmul rd ra rb)))) ∧
    (encode (.pmul rd ra rb)).toNat
      = 0x35 * 2 ^ 24 + rd.num.val * 2 ^ 20 + ra.num.val * 2 ^ 16 + rb.num.val * 2 ^ 12

/-- PDIVMOD (R156): for different destinations and a nonzero divisor `b`, the quotient goes to `rd` and the remainder to
`rc`, with dividend = `q * b + rem` and `deg(rem) < deg(b)`; a zero divisor raises `DivideByZero`; equal destinations make
an illegal command. -/
def Obligations.PdivmodDivides : Prop :=
  (∀ (s : State) (rd ra rb rc : VReg), s.Bounded → rd ≠ rc →
    (poly (s.getV rb) ≠ [] →
      ∃ q rem, exec (.pdivmod rd ra rb rc) s = .next ((s.setV rd q).setV rc rem) ∧
        (q, rem) = pdivmod (poly (s.getV ra)) (poly (s.getV rb)) ∧
        poly (s.getV ra) = padd (pmul q (poly (s.getV rb))) rem ∧ deg rem < deg (poly (s.getV rb)) ∧
        (deg (poly (s.getV ra)) < deg (poly (s.getV rb)) → q = [] ∧ rem = poly (s.getV ra))) ∧
    (poly (s.getV rb) = [] →
      exec (.pdivmod rd ra rb rc) s = .next (s.raise .divideByZero (encode (.pdivmod rd ra rb rc))))) ∧
  (∀ rd ra rb rc : VReg, (encode (.pdivmod rd ra rb rc)).toNat
      = 0x36 * 2 ^ 24 + rd.num.val * 2 ^ 20 + ra.num.val * 2 ^ 16 + rb.num.val * 2 ^ 12 + rc.num.val * 2 ^ 8) ∧
  (∀ rd ra rb : VReg, decode (encode (.pdivmod rd ra rb rd)) = .error .sameDestination)

/-- PQUO (R157) and PREM (R158): the projections of PDIVMOD's division (R147). -/
def Obligations.PquoAndPremProject : Prop :=
  ∀ (s : State) (rd ra rb : VReg), s.Bounded →
    (poly (s.getV rb) ≠ [] →
      exec (.pquo rd ra rb) s = .next (s.setV rd (pdivmod (poly (s.getV ra)) (poly (s.getV rb))).1) ∧
      exec (.prem rd ra rb) s = .next (s.setV rd (pdivmod (poly (s.getV ra)) (poly (s.getV rb))).2) ∧
      deg (pdivmod (poly (s.getV ra)) (poly (s.getV rb))).2 < deg (poly (s.getV rb))) ∧
    (poly (s.getV rb) = [] →
      exec (.pquo rd ra rb) s = .next (s.raise .divideByZero (encode (.pquo rd ra rb))) ∧
      exec (.prem rd ra rb) s = .next (s.raise .divideByZero (encode (.prem rd ra rb)))) ∧
    (encode (.pquo rd ra rb)).toNat
      = 0x37 * 2 ^ 24 + rd.num.val * 2 ^ 20 + ra.num.val * 2 ^ 16 + rb.num.val * 2 ^ 12 ∧
    (encode (.prem rd ra rb)).toNat
      = 0x38 * 2 ^ 24 + rd.num.val * 2 ^ 20 + ra.num.val * 2 ^ 16 + rb.num.val * 2 ^ 12

/-- PWORD (R159): the trimmed source zero-padded at its high-index end to exactly `L` elements (R149). -/
def Obligations.PwordExpands : Prop :=
  ∀ (s : State) (rd ra : VReg) (rb : XReg),
    (∀ L : Nat, s.getX rb = L → (poly (s.getV ra)).length ≤ L → L ≤ s.code.lmax →
      ∃ c, exec (.pword rd ra rb) s = .next (s.setV rd c) ∧ c.length = L ∧
        c = poly (s.getV ra) ++ List.replicate (L - (poly (s.getV ra)).length) false ∧
        ∀ i : Nat, c.getD i false = (s.getV ra).getD i false) ∧
    (s.getX rb < (poly (s.getV ra)).length →
      exec (.pword rd ra rb) s = .next (s.raise .lengthTooShort (encode (.pword rd ra rb)))) ∧
    (((poly (s.getV ra)).length : Int) ≤ s.getX rb → (s.code.lmax : Int) < s.getX rb →
      exec (.pword rd ra rb) s = .next (s.raise .capacity (encode (.pword rd ra rb)))) ∧
    (encode (.pword rd ra rb)).toNat
      = 0x39 * 2 ^ 24 + rd.num.val * 2 ^ 20 + ra.num.val * 2 ^ 16 + rb.num.val * 2 ^ 12

/-- The laws R160 quotes for all polynomials: addition commutes and is its own inverse, and
`(a * b) mod c == ((a mod c) * (b mod c)) mod c` for any nonzero `c`; also that multiplication commutes (R145). -/
def Obligations.PolynomialRingLaws : Prop :=
  ∀ a b c : Poly, trim a = a → trim b = b → trim c = c →
    padd a b = padd b a ∧ padd a a = [] ∧ padd a [] = a ∧ pmul a b = pmul b a ∧ pmul a [] = [] ∧ pmul a [true] = a ∧
    (c ≠ [] → prem (pmul a b) c = prem (pmul (prem a c) (prem b c)) c)

/-- Division over GF(2) is correct and unique (R146, R160). -/
def Obligations.DivisionIsCorrectAndUnique : Prop :=
  ∀ a b : Poly, trim a = a → trim b = b → b ≠ [] →
    padd (pmul (pquo a b) b) (prem a b) = a ∧ deg (prem a b) < deg b ∧
    (pquo a b ≠ [] → deg (pquo a b) = deg a - deg b) ∧
    ∀ q rem : Poly, trim q = q → trim rem = rem → padd (pmul q b) rem = a → deg rem < deg b →
      q = pquo a b ∧ rem = prem a b

/-! ### Cyclic code (`43_cyclic_code.md`) -/

/-- ENC (R176): the codeword is the product of the message polynomial and `g`, expanded to length `n`. -/
def Obligations.EncMultipliesByTheGenerator : Prop :=
  ∀ (s : State) (rd ra : VReg), s.Bounded →
    (((s.getV ra).length : Int) = s.code.n - deg s.code.g →
      ∃ c, exec (.enc rd ra) s = .next (s.setV rd c) ∧ c.length = s.code.n ∧
        c = toWord (pmul (poly (s.getV ra)) s.code.g) s.code.n ∧ poly c = pmul (poly (s.getV ra)) s.code.g) ∧
    (((s.getV ra).length : Int) ≠ s.code.n - deg s.code.g →
      exec (.enc rd ra) s = .next (s.raise .invalidLength (encode (.enc rd ra)))) ∧
    (encode (.enc rd ra)).toNat = 0x40 * 2 ^ 24 + rd.num.val * 2 ^ 20 + ra.num.val * 2 ^ 16

/-- DEC (R177): the quotient by `g` expanded to length `k`, whatever the remainder. -/
def Obligations.DecDividesByTheGenerator : Prop :=
  ∀ (s : State) (rd ra : VReg), s.Bounded →
    ((s.getV ra).length = s.code.n →
      ∃ c, exec (.dec rd ra) s = .next (s.setV rd c) ∧ (c.length : Int) = s.code.n - deg s.code.g ∧
        c = toWord (pquo (poly (s.getV ra)) s.code.g) (codeK s.code) ∧
        poly c = pquo (poly (s.getV ra)) s.code.g) ∧
    ((s.getV ra).length ≠ s.code.n →
      exec (.dec rd ra) s = .next (s.raise .invalidLength (encode (.dec rd ra)))) ∧
    (encode (.dec rd ra)).toNat = 0x41 * 2 ^ 24 + rd.num.val * 2 ^ 20 + ra.num.val * 2 ^ 16

/-- R183: for every legal parameter set and every message of length `k`, DEC of ENC of the message is the message, run as
two commands through any registers. -/
def Obligations.DecodeOfEncodedMessage : Prop :=
  ∀ (s : State) (ra rb rc : VReg), s.Bounded → ((s.getV ra).length : Int) = s.code.n - deg s.code.g →
    ∃ t u, exec (.enc rb ra) s = .next t ∧ exec (.dec rc rb) t = .next u ∧ u.getV rc = s.getV ra ∧
      u.fault = s.fault

/-- SYND (R180): the remainder by `g`, trimmed, of length 0 to `r`. -/
def Obligations.SyndTakesTheRemainder : Prop :=
  ∀ (s : State) (rd ra : VReg), s.Bounded →
    ((s.getV ra).length = s.code.n →
      ∃ c, exec (.synd rd ra) s = .next (s.setV rd c) ∧ c = prem (poly (s.getV ra)) s.code.g ∧ trim c = c ∧
        (c.length : Int) ≤ deg s.code.g) ∧
    ((s.getV ra).length ≠ s.code.n →
      exec (.synd rd ra) s = .next (s.raise .invalidLength (encode (.synd rd ra)))) ∧
    (encode (.synd rd ra)).toNat = 0x42 * 2 ^ 24 + rd.num.val * 2 ^ 20 + ra.num.val * 2 ^ 16

/-- SYNR (R181): the remainder by `g` of `x^i` times the source, for every `i >= 0`. -/
def Obligations.SynrShiftsTheSyndrome : Prop :=
  ∀ (s : State) (rd ra : VReg) (rb : XReg), s.Bounded →
    (∀ i : Nat, s.getX rb = i →
      ∃ c, exec (.synr rd ra rb) s = .next (s.setV rd c) ∧
        c = prem (pmul (mono i) (poly (s.getV ra))) s.code.g ∧ trim c = c ∧ (c.length : Int) ≤ deg s.code.g) ∧
    (s.getX rb < 0 → exec (.synr rd ra rb) s = .next (s.raise .negativeDegree (encode (.synr rd ra rb)))) ∧
    (encode (.synr rd ra rb)).toNat
      = 0x43 * 2 ^ 24 + rd.num.val * 2 ^ 20 + ra.num.val * 2 ^ 16 + rb.num.val * 2 ^ 12

/-- The step form of the syndrome generator (R179): one shift and one remainder a time. -/
def Obligations.ShiftedSyndromeStepForm : Prop :=
  ∀ (c : CodeParams) (p : Poly), legal c = true → trim p = p →
    shiftedSyndrome c p 0 = prem p c.g ∧
    ∀ i : Nat, shiftedSyndrome c p (i + 1) = prem (shl (shiftedSyndrome c p i) 1) c.g

/-- BTQ (R182) with the ROM's content (R173): 1 exactly when the source, trimmed and expanded to length `k`, is a rotation
by an amount below `n` of a member of `gen(p)` followed by zeros; `LengthTooShort` when it is longer than `k` (R174). -/
def Obligations.BtqAsksTheRom : Prop :=
  ∀ (s : State) (rd : XReg) (ra : VReg) (k : Nat), s.Bounded → (k : Int) = s.code.n - deg s.code.g →
    ((poly (s.getV ra)).length ≤ k →
      ((∃ w ∈ gen s.code.p, ∃ a : Nat, a < s.code.n ∧
          toWord (poly (s.getV ra)) k = rotR (w ++ List.replicate (k - s.code.p) false) a) →
        exec (.btq rd ra) s = .next (s.setX rd 1) ∧ (s.setX rd 1).getX rd = 1) ∧
      ((∀ w ∈ gen s.code.p, ∀ a : Nat, a < s.code.n →
          toWord (poly (s.getV ra)) k ≠ rotR (w ++ List.replicate (k - s.code.p) false) a) →
        exec (.btq rd ra) s = .next (s.setX rd 0) ∧ (s.setX rd 0).getX rd = 0)) ∧
    (k < (poly (s.getV ra)).length →
      exec (.btq rd ra) s = .next (s.raise .lengthTooShort (encode (.btq rd ra)))) ∧
    (encode (.btq rd ra)).toNat = 0x44 * 2 ^ 24 + rd.num.val * 2 ^ 20 + ra.num.val * 2 ^ 16

/-- Facts of R175 about the ROM of a legal block: every member has length `k`; the zero vector is one; only the amounts 0
to `k - 1` contribute; for `p = 0` it is the only one; for `p = k` every vector of length `k` is one. -/
def Obligations.RomContentFacts : Prop :=
  ∀ c : CodeParams, legal c = true →
    (∀ w, romMember c w = true → w.length = codeK c) ∧ romMember c (zeros (codeK c)) = true ∧
    (∀ w, romMember c w = true ↔
      ∃ u ∈ gen c.p, ∃ a : Nat, a < codeK c ∧ w = rotR (u ++ zeros (codeK c - c.p)) a) ∧
    (c.p = 0 → ∀ w, romMember c w = true ↔ w = zeros (codeK c)) ∧
    (c.p = codeK c → ∀ w, romMember c w = true ↔ w.length = codeK c)

/-- R185: ENC and the syndrome are linear over GF(2). -/
def Obligations.EncoderAndSyndromeAreLinear : Prop :=
  ∀ c : CodeParams, legal c = true →
    (∀ m m' : BitVector, m.length = codeK c → m'.length = codeK c →
      toWord (pmul (poly (vadd m m')) c.g) c.n
        = vadd (toWord (pmul (poly m) c.g) c.n) (toWord (pmul (poly m') c.g) c.n)) ∧
    (∀ w w' : BitVector, w.length = c.n → w'.length = c.n →
      syndrome c (vadd w w') = padd (syndrome c w) (syndrome c w'))

/-! ### Error locator (`44_error_locator.md`) -/

/-- FERR (R203) by the scan of R200 to R202: with `S i` the syndrome after `i` shifts, the first `i` below `n` with
`wt(S i) <= t` gives the pattern `rotR(toWord(S i, n), n - i)` and `F = 1`; when there is none `F = 0` and no register
changes; a word of another length raises `InvalidLength`. -/
def Obligations.FerrLocatesByWeight : Prop :=
  ∀ (s : State) (rd ra : VReg) (S : Nat → Poly), s.Bounded →
    (∀ i, S i = prem (pmul (mono i) (prem (poly (s.getV ra)) s.code.g)) s.code.g) →
    ((s.getV ra).length = s.code.n →
      (∀ i : Nat, i < s.code.n → ((wt (S i) : Nat) : Int) ≤ (s.code.n - deg s.code.g - 1) / 2 →
        (∀ j, j < i → (s.code.n - deg s.code.g - 1) / 2 < ((wt (S j) : Nat) : Int)) →
        exec (.ferr rd ra) s
          = .next ((s.setV rd (rotR (toWord (S i) s.code.n) (s.code.n - i))).setFound true)) ∧
      ((∀ i : Nat, i < s.code.n → (s.code.n - deg s.code.g - 1) / 2 < ((wt (S i) : Nat) : Int)) →
        exec (.ferr rd ra) s = .next (s.setFound false))) ∧
    ((s.getV ra).length ≠ s.code.n →
      exec (.ferr rd ra) s = .next (s.raise .invalidLength (encode (.ferr rd ra)))) ∧
    (encode (.ferr rd ra)).toNat = 0x45 * 2 ^ 24 + rd.num.val * 2 ^ 20 + ra.num.val * 2 ^ 16

/-- FPKG (R204) by the scan of R200 to R202: the first `i` below `n` whose syndrome, expanded to length `k`, is in the ROM
gives the pattern and `F = 1`; when there is none `F = 0` and no register changes; the first syndrome longer than `k`
before any accepted one raises `LengthTooShort`; a word of another length raises `InvalidLength`. -/
def Obligations.FpkgLocatesByTable : Prop :=
  ∀ (s : State) (rd ra : VReg) (S : Nat → Poly) (k : Nat), s.Bounded → (k : Int) = s.code.n - deg s.code.g →
    (∀ i, S i = prem (pmul (mono i) (prem (poly (s.getV ra)) s.code.g)) s.code.g) →
    ((s.getV ra).length = s.code.n →
      (∀ i : Nat, i < s.code.n → (S i).length ≤ k → romMember s.code (toWord (S i) k) = true →
        (∀ j, j < i → (S j).length ≤ k ∧ romMember s.code (toWord (S j) k) = false) →
        exec (.fpkg rd ra) s
          = .next ((s.setV rd (rotR (toWord (S i) s.code.n) (s.code.n - i))).setFound true)) ∧
      (∀ i : Nat, i < s.code.n → k < (S i).length →
        (∀ j, j < i → (S j).length ≤ k ∧ romMember s.code (toWord (S j) k) = false) →
        exec (.fpkg rd ra) s = .next (s.raise .lengthTooShort (encode (.fpkg rd ra)))) ∧
      ((∀ i : Nat, i < s.code.n → (S i).length ≤ k ∧ romMember s.code (toWord (S i) k) = false) →
        exec (.fpkg rd ra) s = .next (s.setFound false))) ∧
    ((s.getV ra).length ≠ s.code.n →
      exec (.fpkg rd ra) s = .next (s.raise .invalidLength (encode (.fpkg rd ra)))) ∧
    (encode (.fpkg rd ra)).toNat = 0x46 * 2 ^ 24 + rd.num.val * 2 ^ 20 + ra.num.val * 2 ^ 16

/-- R205, first corner case: on a codeword both locators report the all-zero pattern as found. -/
def Obligations.CodewordIsFoundWithZeroPattern : Prop :=
  ∀ (s : State) (rd ra : VReg), s.Bounded → (s.getV ra).length = s.code.n → syndrome s.code (s.getV ra) = [] →
    exec (.ferr rd ra) s = .next ((s.setV rd (zeros s.code.n)).setFound true) ∧
    exec (.fpkg rd ra) s = .next ((s.setV rd (zeros s.code.n)).setFound true)

/-- What follows from the scan for every code (R207): when `g` divides `x^n + 1`, adding the located pattern to the
received word gives a codeword. -/
def Obligations.LocatedPatternYieldsACodeword : Prop :=
  ∀ (c : CodeParams) (w e : BitVector) (accept : Poly → Except Kind Bool), legal c = true →
    prem (padd (mono c.n) [true]) c.g = [] → w.length = c.n → locate c w accept = .ok (some e) →
    e.length = c.n ∧ syndrome c (vadd w e) = []
end

