-- ==== Sys2Proof/Laws/Vectors.lean ====
section
/-! SUPPORT. The small lemmas of the vector functions: lengths and elements. -/

namespace Sys2Proof.Machine

@[simp] theorem length_zeros (m : Nat) : (zeros m).length = m := by simp [zeros]

@[simp] theorem zeros_zero : zeros 0 = [] := rfl

@[simp] theorem getElem?_zeros (m i : Nat) : (zeros m)[i]? = if i < m then some false else none := by
  simp [zeros, List.getElem?_replicate]

theorem length_vadd (a b : BitVector) : (vadd a b).length = min a.length b.length := by simp [vadd]

theorem length_vadd_of_eq {a b : BitVector} (h : a.length = b.length) : (vadd a b).length = a.length := by
  simp [vadd, h]

/-- Element `i` of a sum of two vectors of one length (R100). -/
theorem getD_vadd {a b : BitVector} (h : a.length = b.length) (i : Nat) :
    (vadd a b).getD i false = xor (a.getD i false) (b.getD i false) := by
  simp only [vadd, List.getD_eq_getElem?_getD, List.getElem?_zipWith]
  by_cases hi : i < a.length
  · have hb : i < b.length := h ▸ hi
    simp [List.getElem?_eq_getElem hi, List.getElem?_eq_getElem hb]
  · have ha : a[i]? = none := List.getElem?_eq_none (by omega)
    have hb : b[i]? = none := List.getElem?_eq_none (by omega)
    simp [ha, hb]

theorem length_slice (v : BitVector) (lo hi : Nat) : (slice v lo hi).length = min hi v.length - lo := by
  simp [slice]

/-- Element `i` of a slice is element `lo + i` of the vector (R6). -/
theorem getElem?_slice (v : BitVector) (lo hi i : Nat) :
    (slice v lo hi)[i]? = if lo + i < hi then v[lo + i]? else none := by
  simp [slice, List.getElem?_drop, List.getElem?_take]

theorem wt_le_length (v : BitVector) : wt v ≤ v.length := List.count_le_length

@[simp] theorem wt_append (a b : BitVector) : wt (a ++ b) = wt a + wt b := by simp [wt]

@[simp] theorem wt_zeros (m : Nat) : wt (zeros m) = 0 := by simp [wt, zeros, List.count_replicate]

/-! ### Rotation -/

@[simp] theorem rotR_zero (v : BitVector) : rotR v 0 = v := rfl

/-- A rotation keeps the length (R101). -/
@[simp] theorem length_rotR (v : BitVector) (a : Int) : (rotR v a).length = v.length := by
  unfold rotR
  split
  · rfl
  · split <;> simp [length_slice]

/-- Rotation by an amount from 0 to the length moves the last elements to the front (R101). -/
theorem rotR_of_le (v : BitVector) {m : Nat} (h : m ≤ v.length) :
    rotR v (m : Int) = v.drop (v.length - m) ++ v.take (v.length - m) := by
  unfold rotR
  split
  · have : m = 0 := by omega
    subst this
    simp
  · split
    · simp [slice, Nat.min_eq_left h]
    · omega

/-- Rotation by the length or more is the identity (R101, R121). -/
theorem rotR_of_length_le (v : BitVector) {a : Int} (h : (v.length : Int) ≤ a) : rotR v a = v := by
  unfold rotR
  split
  · rfl
  · split
    · have : min a.toNat v.length = v.length := by omega
      simp [this, slice]
    · omega

/-- Left rotation by the length or more is the identity (R101). -/
theorem rotR_of_le_neg_length (v : BitVector) {a : Int} (h : a ≤ -(v.length : Int)) : rotR v a = v := by
  unfold rotR
  split
  · rfl
  · split
    · omega
    · have : min (-a).toNat v.length = v.length := by omega
      simp [this, slice]

/-! ### The sequence generator -/

@[simp] theorem length_seq (L j : Nat) : (seq L j).length = L := by simp [seq]

end Sys2Proof.Machine
end

