-- ==== Sys2Proof/Laws/Polynomials.lean ====
section
/-! SUPPORT. The small lemmas of the polynomial functions: lengths and trimmed results (`42_polynomial.md` R140 to R149). -/

namespace Sys2Proof.Machine

/-! ### Trimming -/

@[simp] theorem trim_nil : trim [] = [] := rfl

theorem trim_append_false (v : BitVector) : trim (v ++ [false]) = trim v := by
  simp [trim]

theorem trim_append_true (v : BitVector) : trim (v ++ [true]) = v ++ [true] := by
  simp [trim]

@[simp] theorem trim_append_zeros (v : BitVector) (m : Nat) : trim (v ++ zeros m) = trim v := by
  induction m with
  | zero => simp
  | succ m ih =>
    have : v ++ zeros (m + 1) = (v ++ zeros m) ++ [false] := by
      simp [zeros, List.replicate_succ']
    rw [this, trim_append_false, ih]

@[simp] theorem trim_zeros (m : Nat) : trim (zeros m) = [] := by
  simpa using trim_append_zeros [] m

/-- A vector is its trimmed part followed by zeros (R140). -/
theorem trim_append_zeros_eq (v : BitVector) : trim v ++ zeros (v.length - (trim v).length) = v := by
  induction v using List.reverseRecOn with
  | nil => rfl
  | append_singleton v b ih =>
    cases b with
    | true => simp [trim_append_true]
    | false =>
      have hle : (trim v).length ≤ v.length := by
        have := congrArg List.length ih
        simp at this
        omega
      rw [trim_append_false, List.length_append, List.length_singleton, Nat.sub_add_comm hle]
      conv_rhs => rw [← ih]
      simp [zeros, List.replicate_succ']

theorem length_trim_le (v : BitVector) : (trim v).length ≤ v.length := by
  have := congrArg List.length (trim_append_zeros_eq v)
  simp at this
  omega

/-- Trimming twice is trimming once (R140). -/
@[simp] theorem trim_trim (v : BitVector) : trim (trim v) = trim v := by
  conv_rhs => rw [← trim_append_zeros_eq v]
  simp

/-- A trimmed vector that is not empty ends in a one (R11). -/
theorem trimmed_eq_append {a : BitVector} (h : trim a = a) (hne : a ≠ []) : ∃ v, a = v ++ [true] := by
  rcases List.eq_nil_or_concat a with rfl | ⟨v, b, rfl⟩
  · exact absurd rfl hne
  · refine ⟨v, ?_⟩
    cases b with
    | true => simp
    | false =>
      have h1 := length_trim_le v
      rw [List.concat_eq_append, trim_append_false] at h
      rw [h] at h1
      simp at h1

theorem getD_trim (v : BitVector) (i : Nat) : (trim v).getD i false = v.getD i false := by
  conv_rhs => rw [← trim_append_zeros_eq v]
  simp only [List.getD_eq_getElem?_getD]
  by_cases h : i < (trim v).length
  · rw [List.getElem?_append_left h]
  · rw [List.getElem?_append_right (by omega), List.getElem?_eq_none (by omega)]
    simp only [getElem?_zeros]
    split <;> rfl

/-- Trimming removes only zeros (R140). -/
theorem wt_trim (v : BitVector) : wt (trim v) = wt v := by
  conv_rhs => rw [← trim_append_zeros_eq v]
  simp

/-! ### Results are trimmed, and how long they are -/

@[simp] theorem trim_poly (v : BitVector) : trim (poly v) = poly v := trim_trim v

theorem length_poly_le (v : BitVector) : (poly v).length ≤ v.length := length_trim_le v

@[simp] theorem trim_padd (a b : Poly) : trim (padd a b) = padd a b := trim_trim _

theorem length_padd_le (a b : Poly) : (padd a b).length ≤ max a.length b.length := by
  refine (length_trim_le _).trans ?_
  simp [length_vadd]

@[simp] theorem trim_shl (a : Poly) (i : Nat) : trim (shl a i) = shl a i := trim_trim _

theorem length_shl_le (a : Poly) (i : Nat) : (shl a i).length ≤ i + a.length := by
  refine (length_trim_le _).trans ?_
  simp

@[simp] theorem length_mono (d : Nat) : (mono d).length = d + 1 := by simp [mono]

@[simp] theorem trim_mono (d : Nat) : trim (mono d) = mono d := trim_append_true _

/-- `toWord` gives exactly the length asked for (R149). -/
theorem length_toWord {a : Poly} {L : Nat} (h : a.length ≤ L) : (toWord a L).length = L := by
  simp [toWord]
  omega

/-- The polynomial of an expanded word is the polynomial (R149). -/
@[simp] theorem trim_toWord (a : Poly) (L : Nat) : trim (toWord a L) = trim a := trim_append_zeros _ _

/-- A word is the expansion of its polynomial to its own length (R140, R149). -/
theorem toWord_poly (v : BitVector) : toWord (poly v) v.length = v := trim_append_zeros_eq v

theorem deg_le_iff {a b : Poly} : deg a ≤ deg b ↔ a.length ≤ b.length := by
  simp [deg]

theorem deg_sub_toNat (a b : Poly) : (deg a - deg b).toNat = a.length - b.length := by
  simp only [deg]
  omega

end Sys2Proof.Machine
end

