-- ==== Sys2Proof/Laws/PolyRing.lean ====
section
/-! SUPPORT. The polynomial functions of the model compute in the ring of polynomials over GF(2) (`42_polynomial.md` R145,
R146, R160): each is carried to Mathlib's polynomials over `ZMod 2`, where the ring laws are known. -/

namespace Sys2Proof.Machine

open Polynomial

/-- An element of GF(2) as a number modulo 2 (R8). -/
def bitValue (b : Bool) : ZMod 2 := if b then 1 else 0

@[simp] theorem bitValue_false : bitValue false = 0 := rfl
@[simp] theorem bitValue_true : bitValue true = 1 := rfl

theorem bitValue_xor (a b : Bool) : bitValue (xor a b) = bitValue a + bitValue b := by
  cases a <;> cases b <;> decide

theorem bitValue_injective : Function.Injective bitValue := by
  intro a b h
  cases a <;> cases b <;> simp_all

/-- The polynomial a coefficient vector stands for: element `i` is the coefficient of `x^i` (R7). -/
noncomputable def toPoly : BitVector → (ZMod 2)[X]
  | [] => 0
  | b :: v => C (bitValue b) + X * toPoly v

@[simp] theorem toPoly_nil : toPoly [] = 0 := rfl

@[simp] theorem toPoly_cons (b : Bool) (v : BitVector) : toPoly (b :: v) = C (bitValue b) + X * toPoly v := rfl

theorem coeff_toPoly (v : BitVector) (i : Nat) : (toPoly v).coeff i = bitValue (v.getD i false) := by
  induction v generalizing i with
  | nil => simp
  | cons b v ih =>
    cases i with
    | zero => simp
    | succ i => simp [coeff_X_mul, ih]

theorem toPoly_append (a b : BitVector) : toPoly (a ++ b) = toPoly a + X ^ a.length * toPoly b := by
  induction a with
  | nil => simp
  | cons c a ih => simp [ih, pow_succ]; ring

@[simp] theorem toPoly_zeros (m : Nat) : toPoly (zeros m) = 0 := by
  ext i
  simp [coeff_toPoly, zeros, List.getD_eq_getElem?_getD, List.getElem?_replicate]
  split <;> rfl

@[simp] theorem toPoly_append_zeros (v : BitVector) (m : Nat) : toPoly (v ++ zeros m) = toPoly v := by
  simp [toPoly_append]

@[simp] theorem toPoly_zeros_append (m : Nat) (v : BitVector) : toPoly (zeros m ++ v) = X ^ m * toPoly v := by
  simp [toPoly_append]

@[simp] theorem toPoly_trim (v : BitVector) : toPoly (trim v) = toPoly v := by
  conv_rhs => rw [← trim_append_zeros_eq v]
  simp

@[simp] theorem toPoly_poly (v : BitVector) : toPoly (poly v) = toPoly v := toPoly_trim v

@[simp] theorem toPoly_toWord (a : Poly) (L : Nat) : toPoly (toWord a L) = toPoly a := by simp [toWord]

theorem toPoly_vadd {a b : BitVector} (h : a.length = b.length) : toPoly (vadd a b) = toPoly a + toPoly b := by
  ext i
  rw [coeff_add, coeff_toPoly, coeff_toPoly, coeff_toPoly, getD_vadd h, bitValue_xor]

@[simp] theorem toPoly_padd (a b : Poly) : toPoly (padd a b) = toPoly a + toPoly b := by
  simp only [padd, toPoly_trim]
  rw [toPoly_vadd (by simp)]
  simp

@[simp] theorem toPoly_shl (a : Poly) (i : Nat) : toPoly (shl a i) = X ^ i * toPoly a := by simp [shl]

@[simp] theorem toPoly_mono (d : Nat) : toPoly (mono d) = X ^ d := by simp [mono]

/-- A sum over GF(2) of anything with itself is zero (R8). -/
theorem add_self_zmod2 (p : (ZMod 2)[X]) : p + p = 0 := CharTwo.add_self_eq_zero p

/-! ### Equal polynomials have equal coefficient vectors -/

theorem length_le_of_toPoly_eq {a b : Poly} (ha : trim a = a) (h : toPoly a = toPoly b) : a.length ≤ b.length := by
  by_cases hne : a = []
  · simp [hne]
  · obtain ⟨v, rfl⟩ := trimmed_eq_append ha hne
    by_contra hlt
    have h1 := congrArg (fun p => coeff p v.length) h
    simp only [coeff_toPoly] at h1
    have h2 : b.getD v.length false = false := by
      rw [List.getD_eq_getElem?_getD, List.getElem?_eq_none (by simp at hlt; omega)]
      rfl
    rw [h2] at h1
    simp at h1

/-- The coefficient vector of a polynomial is unique (R11). -/
theorem toPoly_injective {a b : Poly} (ha : trim a = a) (hb : trim b = b) (h : toPoly a = toPoly b) : a = b := by
  have hl : a.length = b.length := Nat.le_antisymm (length_le_of_toPoly_eq ha h) (length_le_of_toPoly_eq hb h.symm)
  apply List.ext_getElem hl
  intro i h1 h2
  have h3 := congrArg (fun p => coeff p i) h
  simp only [coeff_toPoly] at h3
  have h4 := bitValue_injective h3
  simpa [List.getD_eq_getElem?_getD, List.getElem?_eq_getElem h1, List.getElem?_eq_getElem h2] using h4

theorem toPoly_eq_zero_iff {a : Poly} (ha : trim a = a) : toPoly a = 0 ↔ a = [] :=
  ⟨fun h => toPoly_injective ha rfl (by simpa using h), fun h => by simp [h]⟩

/-! ### Degrees -/

theorem degree_toPoly_lt (v : BitVector) : (toPoly v).degree < (v.length : WithBot ℕ) := by
  rw [degree_lt_iff_coeff_zero]
  intro m hm
  rw [coeff_toPoly, List.getD_eq_getElem?_getD, List.getElem?_eq_none (by exact_mod_cast hm)]
  rfl

theorem monic_toPoly {a : Poly} (ha : trim a = a) (hne : a ≠ []) :
    (toPoly a).Monic ∧ (toPoly a).natDegree = a.length - 1 := by
  obtain ⟨v, rfl⟩ := trimmed_eq_append ha hne
  have hv := degree_toPoly_lt v
  have e : toPoly (v ++ [true]) = X ^ v.length + toPoly v := by simp [toPoly_append, add_comm]
  rw [e]
  refine ⟨monic_X_pow_add ?_, ?_⟩
  · exact hv
  · rw [natDegree_add_eq_left_of_degree_lt (by rw [degree_X_pow]; exact hv)]
    simp

/-- A vector of a polynomial of degree below `m` has length at most `m` when trimmed. -/
theorem length_le_of_degree_lt {a : Poly} (ha : trim a = a) {m : Nat} (h : (toPoly a).degree < (m : WithBot ℕ)) :
    a.length ≤ m := by
  by_cases hne : a = []
  · simp [hne]
  · obtain ⟨hm, hd⟩ := monic_toPoly ha hne
    rw [degree_eq_natDegree hm.ne_zero, hd] at h
    have : a.length ≠ 0 := by simpa using hne
    have h' : a.length - 1 < m := by exact_mod_cast h
    omega

/-! ### The multiplier -/

theorem toPoly_pmul_fold (a b : Poly) (m : Nat) (hm : m ≤ b.length) :
    toPoly ((List.range m).foldl (fun acc i => if b.getD i false then padd acc (shl a i) else acc) [])
      = toPoly a * toPoly (b.take m) := by
  induction m with
  | zero => simp
  | succ m ih =>
    have hlt : m < b.length := by omega
    rw [List.range_succ, List.foldl_append, List.take_succ_eq_append_getElem hlt, toPoly_append]
    simp only [List.foldl_cons, List.foldl_nil]
    have hg : b.getD m false = b[m] := by simp [List.getD_eq_getElem?_getD, List.getElem?_eq_getElem hlt]
    rw [hg]
    cases hb : b[m] with
    | false => simpa using ih (by omega)
    | true =>
      simp only [if_true, toPoly_padd, toPoly_shl, ih (by omega : m ≤ b.length), List.length_take,
        Nat.min_eq_left (by omega : m ≤ b.length), toPoly_cons, bitValue_true, map_one, toPoly_nil, mul_zero, add_zero]
      ring

/-- The multiplier computes the product over GF(2) (R145). -/
@[simp] theorem toPoly_pmul (a b : Poly) : toPoly (pmul a b) = toPoly a * toPoly b := by
  rw [pmul, toPoly_pmul_fold a b b.length le_rfl, List.take_length]

@[simp] theorem trim_pmul (a b : Poly) : trim (pmul a b) = pmul a b := by
  unfold pmul
  generalize List.range b.length = l
  suffices ∀ acc : Poly, trim acc = acc →
      trim (l.foldl (fun acc i => if b.getD i false then padd acc (shl a i) else acc) acc)
        = l.foldl (fun acc i => if b.getD i false then padd acc (shl a i) else acc) acc from this [] rfl
  induction l with
  | nil => exact fun _ h => h
  | cons i l ih =>
    intro acc h
    simp only [List.foldl_cons]
    apply ih
    split
    · simp
    · exact h

/-- A product is at most one shorter than its operands together (R145). -/
theorem length_pmul_le (a b : Poly) : (pmul a b).length ≤ a.length + b.length - 1 := by
  by_cases ha : a.length = 0
  · have : a = [] := by simpa using ha
    subst this
    have : pmul [] b = [] := toPoly_injective (trim_pmul _ _) rfl (by simp)
    simp [this]
  · by_cases hb : b.length = 0
    · have : b = [] := by simpa using hb
      subst this
      simp [pmul]
    · apply length_le_of_degree_lt (trim_pmul a b)
      rw [toPoly_pmul]
      by_cases h0 : toPoly a = 0
      · simp [h0]
      by_cases h1 : toPoly b = 0
      · simp [h1]
      have da := degree_toPoly_lt a
      have db := degree_toPoly_lt b
      rw [degree_mul, degree_eq_natDegree h0, degree_eq_natDegree h1] at *
      have da' : (toPoly a).natDegree < a.length := by exact_mod_cast da
      have db' : (toPoly b).natDegree < b.length := by exact_mod_cast db
      have : (toPoly a).natDegree + (toPoly b).natDegree < a.length + b.length - 1 := by omega
      exact_mod_cast this

/-! ### The divider -/

/-- One pass cancels the leading term of the remainder (R146). -/
theorem length_rem_pass {b rem : Poly} (hb : trim b = b) (hne : b ≠ []) (hr : trim rem = rem)
    (hle : b.length ≤ rem.length) : (padd rem (shl b (rem.length - b.length))).length < rem.length := by
  have hb0 : b.length ≠ 0 := by simpa using hne
  have hrne : rem ≠ [] := by
    intro h
    rw [h] at hle
    simp at hle
    exact hne hle
  obtain ⟨mb, nb⟩ := monic_toPoly hb hne
  obtain ⟨mr, nr⟩ := monic_toPoly hr hrne
  have hs : (X ^ (rem.length - b.length) * toPoly b : (ZMod 2)[X]).Monic := (monic_X_pow _).mul mb
  have hd : (X ^ (rem.length - b.length) * toPoly b : (ZMod 2)[X]).natDegree = rem.length - 1 := by
    rw [(monic_X_pow _).natDegree_mul mb, nb]
    simp
    omega
  have hlt : (toPoly rem - X ^ (rem.length - b.length) * toPoly b).degree < (toPoly rem).degree := by
    apply degree_sub_lt_left
    · rw [degree_eq_natDegree mr.ne_zero, degree_eq_natDegree hs.ne_zero, nr, hd]
    · exact mr.ne_zero
    · rw [mr.leadingCoeff, hs.leadingCoeff]
  have hdr : (toPoly rem).degree = ((rem.length - 1 : ℕ) : WithBot ℕ) := by
    rw [degree_eq_natDegree mr.ne_zero, nr]
  have := length_le_of_degree_lt (a := padd rem (shl b (rem.length - b.length))) (m := rem.length - 1) (by simp)
    (by rw [toPoly_padd, toPoly_shl, ← CharTwo.sub_eq_add, ← hdr]; exact hlt)
  omega

/-- What the divider's loop leaves: the dividend is unchanged as `q * b + rem`, and with enough passes the remainder is
shorter than the divisor (R146). -/
theorem pdivmodLoop_spec {b : Poly} (hb : trim b = b) (hne : b ≠ []) :
    ∀ (fuel : Nat) (q rem : Poly), trim q = q → trim rem = rem → rem.length ≤ fuel →
      toPoly (pdivmodLoop b fuel q rem).1 * toPoly b + toPoly (pdivmodLoop b fuel q rem).2
          = toPoly q * toPoly b + toPoly rem
        ∧ trim (pdivmodLoop b fuel q rem).1 = (pdivmodLoop b fuel q rem).1
        ∧ trim (pdivmodLoop b fuel q rem).2 = (pdivmodLoop b fuel q rem).2
        ∧ (pdivmodLoop b fuel q rem).2.length < b.length := by
  have hb0 : 0 < b.length := List.length_pos_iff.mpr hne
  intro fuel
  induction fuel with
  | zero =>
    intro q rem hq hr hf
    exact ⟨rfl, hq, hr, by simp only [pdivmodLoop]; omega⟩
  | succ fuel ih =>
    intro q rem hq hr hf
    simp only [pdivmodLoop, deg_le_iff, deg_sub_toNat]
    split
    · rename_i hle
      have hlt := length_rem_pass hb hne hr hle
      obtain ⟨h1, h2, h3, h4⟩ := ih (padd q (mono (rem.length - b.length))) (padd rem (shl b (rem.length - b.length)))
        (by simp) (by simp) (by omega)
      refine ⟨?_, h2, h3, h4⟩
      rw [h1]
      simp only [toPoly_padd, toPoly_mono, toPoly_shl]
      have := add_self_zmod2 (X ^ (rem.length - b.length) * toPoly b)
      linear_combination this
    · rename_i hle
      exact ⟨rfl, hq, hr, Nat.lt_of_not_le hle⟩

variable {a b : Poly}

/-- Dividend = quotient times divisor plus remainder (R146, R160). -/
theorem toPoly_pdivmod (ha : trim a = a) (hb : trim b = b) (hne : b ≠ []) :
    toPoly (pquo a b) * toPoly b + toPoly (prem a b) = toPoly a := by
  simpa [pquo, prem, pdivmod] using (pdivmodLoop_spec hb hne a.length [] a rfl ha le_rfl).1

theorem trim_pquo (ha : trim a = a) (hb : trim b = b) (hne : b ≠ []) : trim (pquo a b) = pquo a b :=
  (pdivmodLoop_spec hb hne a.length [] a rfl ha le_rfl).2.1

theorem trim_prem (ha : trim a = a) (hb : trim b = b) (hne : b ≠ []) : trim (prem a b) = prem a b :=
  (pdivmodLoop_spec hb hne a.length [] a rfl ha le_rfl).2.2.1

/-- The remainder's degree is below the divisor's (R146). -/
theorem length_prem_lt (ha : trim a = a) (hb : trim b = b) (hne : b ≠ []) : (prem a b).length < b.length :=
  (pdivmodLoop_spec hb hne a.length [] a rfl ha le_rfl).2.2.2

/-- The remainder is the remainder of Mathlib's division by a monic polynomial. -/
theorem toPoly_divMod (ha : trim a = a) (hb : trim b = b) (hne : b ≠ []) :
    toPoly a /ₘ toPoly b = toPoly (pquo a b) ∧ toPoly a %ₘ toPoly b = toPoly (prem a b) := by
  obtain ⟨mb, nb⟩ := monic_toPoly hb hne
  apply div_modByMonic_unique _ _ mb
  refine ⟨?_, ?_⟩
  · rw [← toPoly_pdivmod ha hb hne]
    ring
  · refine (degree_toPoly_lt _).trans_le ?_
    rw [degree_eq_natDegree mb.ne_zero, nb]
    have := length_prem_lt ha hb hne
    exact_mod_cast (by omega : (prem a b).length ≤ b.length - 1)

/-- A quotient is no longer than the dividend, by the divisor's degree (R146). -/
theorem length_pquo_le (ha : trim a = a) (hb : trim b = b) (hne : b ≠ []) :
    (pquo a b).length ≤ a.length - (b.length - 1) := by
  obtain ⟨mb, nb⟩ := monic_toPoly hb hne
  by_cases hq : pquo a b = []
  · simp [hq]
  obtain ⟨mq, nq⟩ := monic_toPoly (trim_pquo ha hb hne) hq
  have hql : 0 < (pquo a b).length := List.length_pos_iff.mpr hq
  by_contra hlt
  have h1 := (toPoly_divMod ha hb hne).1
  have h2 : (toPoly a /ₘ toPoly b).natDegree = (toPoly a).natDegree - (toPoly b).natDegree := natDegree_divByMonic _ mb
  rw [h1, nq, nb] at h2
  have h3 : (toPoly a).natDegree ≤ a.length - 1 := by
    by_cases ha0 : a = []
    · simp [ha0]
    · rw [(monic_toPoly ha ha0).2]
  have h4 : a ≠ [] := by
    rintro rfl
    rw [toPoly_nil, zero_divByMonic] at h1
    exact hq ((toPoly_eq_zero_iff (trim_pquo ha hb hne)).1 h1.symm)
  have h5 : ¬ (toPoly a).degree < (toPoly b).degree := by
    intro h
    rw [(divByMonic_eq_zero_iff mb).2 h] at h1
    exact hq ((toPoly_eq_zero_iff (trim_pquo ha hb hne)).1 h1.symm)
  obtain ⟨ma, na⟩ := monic_toPoly ha h4
  rw [degree_eq_natDegree ma.ne_zero, degree_eq_natDegree mb.ne_zero, na, nb] at h5
  have h6 : ¬ a.length - 1 < b.length - 1 := by exact_mod_cast h5
  have h7 : 0 < a.length := List.length_pos_iff.mpr h4
  omega

end Sys2Proof.Machine
end

