-- ==== Sys2Proof/Laws/CyclicCode.lean ====
section
/-! SUPPORT. What legality gives (`43_cyclic_code.md` R171), the lengths of the code functions' results, and the scan of
the locators said once (`44_error_locator.md` R200, R201). -/

namespace Sys2Proof.Machine

variable {c : CodeParams}

/-- The conditions of R171, one by one. -/
theorem legal_iff : legal c = true ↔
    trim c.g = c.g ∧ c.g ≠ [] ∧ 0 < codeR c ∧ codeR c < c.n ∧ c.p ≤ codeK c ∧ c.n ≤ c.lmax ∧ c.lmax ≤ 2 ^ 31 - 1 := by
  simp [legal, and_assoc]

theorem legal_trim (h : legal c = true) : trim c.g = c.g := (legal_iff.1 h).1

theorem legal_ne_nil (h : legal c = true) : c.g ≠ [] := (legal_iff.1 h).2.1

/-- The numbers of a legal parameter set: `len(g) = r + 1`, `n = k + r`, `k >= 1`, `r >= 1` (R170, R171). -/
theorem legal_numbers (h : legal c = true) :
    c.g.length = codeR c + 1 ∧ c.n = codeK c + codeR c ∧ 0 < codeK c ∧ 0 < codeR c ∧ codeR c < c.n ∧ c.p ≤ codeK c ∧
      c.n ≤ c.lmax ∧ c.lmax < 2 ^ 31 := by
  obtain ⟨-, h1, h2, h3, h4, h5, h6⟩ := legal_iff.1 h
  have hg : 0 < c.g.length := List.length_pos_iff.mpr h1
  unfold codeK codeR at *
  omega

theorem deg_g (h : legal c = true) : deg c.g = codeR c := by
  have := (legal_numbers h).1
  simp only [deg]
  omega

theorem codeK_eq (h : legal c = true) : (codeK c : Int) = c.n - deg c.g := by
  rw [deg_g h]
  have := (legal_numbers h).2.1
  omega

theorem codeT_eq (h : legal c = true) : (codeT c : Int) = (c.n - deg c.g - 1) / 2 := by
  rw [← codeK_eq h]
  have := (legal_numbers h).2.2.1
  unfold codeT
  omega

/-! ### Syndromes -/

theorem trim_syndrome (h : legal c = true) (w : BitVector) : trim (syndrome c w) = syndrome c w :=
  trim_prem (trim_poly w) (legal_trim h) (legal_ne_nil h)

/-- A syndrome has length at most `r` (R178). -/
theorem length_syndrome_le (h : legal c = true) (w : BitVector) : (syndrome c w).length ≤ codeR c := by
  have := length_prem_lt (trim_poly w) (legal_trim h) (legal_ne_nil h)
  have := (legal_numbers h).1
  unfold syndrome
  omega

theorem trim_shiftedSyndrome (h : legal c = true) (p : Poly) (i : Nat) :
    trim (shiftedSyndrome c p i) = shiftedSyndrome c p i :=
  trim_prem (trim_pmul _ _) (legal_trim h) (legal_ne_nil h)

/-- A shifted syndrome has length at most `r` (R179, R181). -/
theorem length_shiftedSyndrome_le (h : legal c = true) (p : Poly) (i : Nat) :
    (shiftedSyndrome c p i).length ≤ codeR c := by
  have := length_prem_lt (trim_pmul (mono i) p) (legal_trim h) (legal_ne_nil h)
  have := (legal_numbers h).1
  unfold shiftedSyndrome
  omega

theorem toPoly_syndrome (h : legal c = true) (w : BitVector) : toPoly (syndrome c w) = toPoly w %ₘ toPoly c.g := by
  rw [syndrome, ← (toPoly_divMod (trim_poly w) (legal_trim h) (legal_ne_nil h)).2, toPoly_poly]

theorem toPoly_shiftedSyndrome (h : legal c = true) (p : Poly) (i : Nat) :
    toPoly (shiftedSyndrome c p i) = (Polynomial.X ^ i * toPoly p) %ₘ toPoly c.g := by
  rw [shiftedSyndrome, ← (toPoly_divMod (trim_pmul _ _) (legal_trim h) (legal_ne_nil h)).2]
  simp

/-! ### Encoder and decoder: `toWord` cannot fail (R176, R177) -/

theorem length_codeword (h : legal c = true) {m : BitVector} (hm : m.length = codeK c) :
    (pmul (poly m) c.g).length ≤ c.n := by
  have h1 := length_pmul_le (poly m) c.g
  have h2 := length_poly_le m
  have h3 := legal_numbers h
  omega

theorem length_message (h : legal c = true) {w : BitVector} (hw : w.length = c.n) :
    (pquo (poly w) c.g).length ≤ codeK c := by
  have h1 := length_pquo_le (trim_poly w) (legal_trim h) (legal_ne_nil h)
  have h2 := length_poly_le w
  have h3 := legal_numbers h
  omega

/-! ### The ROM -/

theorem romMember_iff {w : BitVector} :
    romMember c w = true ↔ ∃ u ∈ gen c.p, ∃ a : Nat, a < c.n ∧ w = rotR (u ++ zeros (codeK c - c.p)) a := by
  simp [romMember, burstTable, eq_comm]

/-! ### The scan -/

variable {accept : Poly → Except Kind Bool} {rem : Poly}

/-- A found pattern is that of an accepted amount of the list (R200). -/
theorem scan_found_length (h : legal c = true) {l : List Nat} {e : BitVector} :
    scan c accept rem l = .ok (some e) → e.length = c.n := by
  induction l with
  | nil => simp [scan]
  | cons i l ih =>
    unfold scan
    split
    · simp
    · intro he
      simp only [Except.ok.injEq, Option.some.injEq] at he
      subst he
      rw [length_rotR, length_toWord]
      have h1 := length_shiftedSyndrome_le h rem i
      have h2 := legal_numbers h
      omega
    · exact ih

/-- The scan passes over a rejected beginning of the list. -/
theorem scan_append_of_rejected {l l' : List Nat} (hr : ∀ j ∈ l, accept (shiftedSyndrome c rem j) = .ok false) :
    scan c accept rem (l ++ l') = scan c accept rem l' := by
  induction l with
  | nil => rfl
  | cons j l ih =>
    have h1 := hr j (by simp)
    simp only [List.cons_append, scan, h1]
    exact ih fun j hj => hr j (by simp [hj])

theorem range_split {i n : Nat} (h : i < n) :
    List.range n = List.range i ++ i :: (List.range (n - i - 1)).map (i + 1 + ·) := by
  obtain ⟨m, rfl⟩ : ∃ m, n = i + (m + 1) := ⟨n - i - 1, by omega⟩
  rw [List.range_add, List.range_succ_eq_map]
  simp only [List.map_cons, Nat.add_zero, List.map_map]
  congr 2
  have : i + (m + 1) - i - 1 = m := by omega
  rw [this]
  apply List.map_congr_left
  intro x _
  simp
  omega

/-- The first accepted amount decides (R201). -/
theorem locate_of_accepted {w : BitVector} {i : Nat} (hi : i < c.n)
    (ha : accept (shiftedSyndrome c (syndrome c w) i) = .ok true)
    (hr : ∀ j, j < i → accept (shiftedSyndrome c (syndrome c w) j) = .ok false) :
    locate c w accept = .ok (some (rotR (toWord (shiftedSyndrome c (syndrome c w) i) c.n) ((c.n : Int) - i))) := by
  unfold locate
  rw [range_split hi, scan_append_of_rejected fun j hj => hr j (by simpa using hj)]
  simp [scan, ha]

/-- A fault of the test before any accepted amount ends the scan (R202). -/
theorem locate_of_error {w : BitVector} {i : Nat} {k : Kind} (hi : i < c.n)
    (ha : accept (shiftedSyndrome c (syndrome c w) i) = .error k)
    (hr : ∀ j, j < i → accept (shiftedSyndrome c (syndrome c w) j) = .ok false) :
    locate c w accept = .error k := by
  unfold locate
  rw [range_split hi, scan_append_of_rejected fun j hj => hr j (by simpa using hj)]
  simp [scan, ha]

/-- When every amount is rejected the result is absent (R200). -/
theorem locate_of_rejected {w : BitVector}
    (hr : ∀ j, j < c.n → accept (shiftedSyndrome c (syndrome c w) j) = .ok false) :
    locate c w accept = .ok none := by
  have := scan_append_of_rejected (c := c) (accept := accept) (rem := syndrome c w) (l := List.range c.n) (l' := [])
    fun j hj => hr j (by simpa using hj)
  simpa [locate, scan] using this

/-- A found pattern comes from some amount below `n` (R200). -/
theorem locate_found {w e : BitVector} (h : locate c w accept = .ok (some e)) :
    ∃ i, i < c.n ∧ e = rotR (toWord (shiftedSyndrome c (syndrome c w) i) c.n) ((c.n : Int) - i) := by
  unfold locate at h
  suffices ∀ l : List Nat, scan c accept (syndrome c w) l = .ok (some e) →
      ∃ i ∈ l, e = rotR (toWord (shiftedSyndrome c (syndrome c w) i) c.n) ((c.n : Int) - i) by
    obtain ⟨i, hi, he⟩ := this _ h
    exact ⟨i, by simpa using hi, he⟩
  intro l
  induction l with
  | nil => simp [scan]
  | cons i l ih =>
    unfold scan
    split
    · simp
    · intro he
      simp only [Except.ok.injEq, Option.some.injEq] at he
      exact ⟨i, by simp, he.symm⟩
    · intro he
      obtain ⟨j, hj, hje⟩ := ih he
      exact ⟨j, by simp [hj], hje⟩

end Sys2Proof.Machine
end

