-- ==== Sys2Proof/Laws/Decode.lean ====
section
/-! SUPPORT. Fields and words as numbers: what each field function reads and what each format function builds, so that
statements about encodings reduce to arithmetic. -/

namespace Sys2Proof

/-! ### Fields of a word -/

theorem opcodeOf_eq (w : Word) : opcodeOf w = w.toNat / 2 ^ 24 := by
  have := w.isLt
  simp only [opcodeOf, BitVec.extractLsb'_toNat, Nat.shiftRight_eq_div_pow]
  omega

theorem vField_num (w : Word) (lo : Nat) : (vField w lo).num.val = w.toNat / 2 ^ lo % 16 := by
  simp [vField, Nat.shiftRight_eq_div_pow]

theorem xField_num (w : Word) (lo : Nat) : (xField w lo).num.val = w.toNat / 2 ^ lo % 16 := by
  simp [xField, Nat.shiftRight_eq_div_pow]

theorem imm20Field_toNat (w : Word) : (imm20Field w).toNat = w.toNat % 2 ^ 20 := by
  simp [imm20Field, BitVec.extractLsb'_toNat]

theorem lenField_toNat (w : Word) : (lenField w).toNat = w.toNat / 2 ^ 16 % 16 := by
  simp [lenField, BitVec.extractLsb'_toNat, Nat.shiftRight_eq_div_pow]

theorem bitsField_toNat (w : Word) : (bitsField w).toNat = w.toNat % 2 ^ 16 := by
  simp [bitsField, BitVec.extractLsb'_toNat]

/-! ### Register numbers are determined by their value -/

theorem VReg.ext_num {a b : VReg} (h : a.num.val = b.num.val) : a = b := by
  cases a; cases b; exact congrArg VReg.mk (Fin.ext h)

theorem XReg.ext_num {a b : XReg} (h : a.num.val = b.num.val) : a = b := by
  cases a; cases b; exact congrArg XReg.mk (Fin.ext h)

/-! ### Words of the three formats -/

theorem formatR_toNat {opcode rd ra rb rc : Nat} (h : opcode < 256) (hd : rd < 16) (ha : ra < 16) (hb : rb < 16)
    (hc : rc < 16) :
    (formatR opcode rd ra rb rc).toNat = opcode * 2 ^ 24 + rd * 2 ^ 20 + ra * 2 ^ 16 + rb * 2 ^ 12 + rc * 2 ^ 8 := by
  simp only [formatR, BitVec.toNat_ofNat]
  omega

theorem formatL_toNat {opcode rd len bits : Nat} (h : opcode < 256) (hd : rd < 16) (hl : len < 16) (hb : bits < 2 ^ 16) :
    (formatL opcode rd len bits).toNat = opcode * 2 ^ 24 + rd * 2 ^ 20 + len * 2 ^ 16 + bits := by
  simp only [formatL, BitVec.toNat_ofNat]
  omega

theorem formatI_toNat {opcode rd imm20 : Nat} (h : opcode < 256) (hd : rd < 16) (hi : imm20 < 2 ^ 20) :
    (formatI opcode rd imm20).toNat = opcode * 2 ^ 24 + rd * 2 ^ 20 + imm20 := by
  simp only [formatI, BitVec.toNat_ofNat]
  omega

/-! ### The opcode of a word of each format -/

theorem opcodeOf_formatR {opcode rd ra rb rc : Nat} (h : opcode < 256) (hd : rd < 16) (ha : ra < 16) (hb : rb < 16)
    (hc : rc < 16) : opcodeOf (formatR opcode rd ra rb rc) = opcode := by
  rw [opcodeOf_eq, formatR_toNat h hd ha hb hc]; omega

theorem opcodeOf_formatL {opcode rd len bits : Nat} (h : opcode < 256) (hd : rd < 16) (hl : len < 16)
    (hb : bits < 2 ^ 16) : opcodeOf (formatL opcode rd len bits) = opcode := by
  rw [opcodeOf_eq, formatL_toNat h hd hl hb]; omega

theorem opcodeOf_formatI {opcode rd imm20 : Nat} (h : opcode < 256) (hd : rd < 16) (hi : imm20 < 2 ^ 20) :
    opcodeOf (formatI opcode rd imm20) = opcode := by
  rw [opcodeOf_eq, formatI_toNat h hd hi]; omega

/-! ### Reading back the fields of a word of format R -/

section
variable {opcode : Nat} (h : opcode < 256) (rd ra rb rc : Fin 16)
include h

theorem opcodeOf_formatR_fin : opcodeOf (formatR opcode rd ra rb rc) = opcode :=
  opcodeOf_formatR h rd.isLt ra.isLt rb.isLt rc.isLt

theorem formatR_toNat_fin : (formatR opcode rd ra rb rc).toNat
    = opcode * 2 ^ 24 + rd * 2 ^ 20 + ra * 2 ^ 16 + rb * 2 ^ 12 + rc * 2 ^ 8 :=
  formatR_toNat h rd.isLt ra.isLt rb.isLt rc.isLt

theorem vField_formatR : vField (formatR opcode rd ra rb rc) 20 = ⟨rd⟩ ∧ vField (formatR opcode rd ra rb rc) 16 = ⟨ra⟩ ∧
    vField (formatR opcode rd ra rb rc) 12 = ⟨rb⟩ ∧ vField (formatR opcode rd ra rb rc) 8 = ⟨rc⟩ := by
  refine ⟨?_, ?_, ?_, ?_⟩ <;> (apply VReg.ext_num; rw [vField_num, formatR_toNat_fin h]; simp only; omega)

theorem xField_formatR : xField (formatR opcode rd ra rb rc) 20 = ⟨rd⟩ ∧ xField (formatR opcode rd ra rb rc) 16 = ⟨ra⟩ ∧
    xField (formatR opcode rd ra rb rc) 12 = ⟨rb⟩ ∧ xField (formatR opcode rd ra rb rc) 8 = ⟨rc⟩ := by
  refine ⟨?_, ?_, ?_, ?_⟩ <;> (apply XReg.ext_num; rw [xField_num, formatR_toNat_fin h]; simp only; omega)

/-- The bits below the last used field of a format R word are zero (R81). -/
theorem formatR_low : (formatR opcode rd ra rb rc).toNat % 2 ^ 8 = 0 ∧ (formatR opcode rd ra rb 0).toNat % 2 ^ 12 = 0 ∧
    (formatR opcode rd ra 0 0).toNat % 2 ^ 16 = 0 ∧ (formatR opcode rd 0 0 0).toNat % 2 ^ 20 = 0 := by
  refine ⟨?_, ?_, ?_, ?_⟩
  · rw [formatR_toNat_fin h]; omega
  · rw [formatR_toNat h rd.isLt ra.isLt rb.isLt (by decide)]; omega
  · rw [formatR_toNat h rd.isLt ra.isLt (by decide) (by decide)]; omega
  · rw [formatR_toNat h rd.isLt (by decide) (by decide) (by decide)]; omega

end

/-! ### The masks of R84 -/

/-- Masking with the opcode byte and the `m` lowest bits keeps just those. -/
theorem and_mask (n : Nat) (hn : n < 2 ^ 32) (m : Nat) (hm : m ≤ 24) :
    n &&& (0xFF000000 ||| (2 ^ m - 1)) = n / 2 ^ 24 * 2 ^ 24 + n % 2 ^ m := by
  have hle : 2 ^ m ≤ 2 ^ 24 := Nat.pow_le_pow_right (by decide) hm
  have hlow : n % 2 ^ m < 2 ^ 24 := (Nat.mod_lt _ (by positivity)).trans_le hle
  rw [Nat.and_or_distrib_left, Nat.and_two_pow_sub_one_eq_mod]
  have hhigh : n &&& 0xFF000000 = (n / 2 ^ 24) <<< 24 := by
    apply Nat.eq_of_testBit_eq
    intro i
    have e : (0xFF000000 : Nat) = (2 ^ 8 - 1) <<< 24 := by decide
    rw [Nat.testBit_and, e, Nat.testBit_shiftLeft, Nat.testBit_shiftLeft, Nat.testBit_two_pow_sub_one,
      Nat.testBit_div_two_pow]
    by_cases h1 : 24 ≤ i
    · by_cases h2 : i < 32
      · have h3 : i - 24 < 8 := by omega
        have h4 : i - 24 + 24 = i := by omega
        simp [h1, h3, h4]
      · have h5 : n.testBit i = false := Nat.testBit_lt_two_pow (hn.trans_le (Nat.pow_le_pow_right (by decide) (by omega)))
        have h4 : i - 24 + 24 = i := by omega
        simp [h4, h5]
    · simp [h1]
  rw [hhigh, ← Nat.shiftLeft_add_eq_or_of_lt hlow, Nat.shiftLeft_eq]

/-- A word meets a row's match and mask when it has the row's opcode and its lowest `m` bits are zero. -/
theorem and_mask_eq_iff (w : Word) (m op : Nat) (hm : m ≤ 24) (hop : op < 256) :
    w &&& BitVec.ofNat 32 (0xFF000000 ||| (2 ^ m - 1)) = BitVec.ofNat 32 (op * 2 ^ 24) ↔
      opcodeOf w = op ∧ w.toNat % 2 ^ m = 0 := by
  have hle : 2 ^ m ≤ 2 ^ 24 := Nat.pow_le_pow_right (by decide) hm
  have hpos : 0 < 2 ^ m := by positivity
  have hlow : w.toNat % 2 ^ m < 2 ^ m := Nat.mod_lt _ hpos
  have hmask : (0xFF000000 ||| (2 ^ m - 1)) < 2 ^ 32 := Nat.or_lt_two_pow (by decide) (by omega)
  rw [← BitVec.toNat_inj, BitVec.toNat_and, BitVec.toNat_ofNat, BitVec.toNat_ofNat, Nat.mod_eq_of_lt hmask,
    and_mask _ w.isLt _ hm, opcodeOf_eq]
  omega

/-! ### What the two checks of the decoder let through -/

theorem lowZero_eq_ok {m : Nat} {w : Word} {i j : Instr} : lowZero m w i = .ok j ↔ w.toNat % 2 ^ m = 0 ∧ i = j := by
  unfold lowZero
  split <;> simp_all

theorem onlyIf_eq_ok {why : Illegal} {i j : Instr} : onlyIf why i = .ok j ↔ i.wellFormed = true ∧ i = j := by
  unfold onlyIf
  split <;> simp_all

end Sys2Proof
end

