-- ==== Sys2Proof/Laws/State.lean ====
section
/-! SUPPORT. The small lemmas of the state: one per field per update, and reading after writing a register. -/

namespace Sys2Proof.Machine

/-! ### `V[r] <- v` -/

@[simp] theorem State.setV_code (s : State) (r : VReg) (v : BitVector) : (s.setV r v).code = s.code := rfl
@[simp] theorem State.setV_live (s : State) (r : VReg) (v : BitVector) : (s.setV r v).live = s.live := rfl
@[simp] theorem State.setV_x (s : State) (r : VReg) (v : BitVector) : (s.setV r v).x = s.x := rfl
@[simp] theorem State.setV_found (s : State) (r : VReg) (v : BitVector) : (s.setV r v).found = s.found := rfl
@[simp] theorem State.setV_fault (s : State) (r : VReg) (v : BitVector) : (s.setV r v).fault = s.fault := rfl
@[simp] theorem State.setV_cause (s : State) (r : VReg) (v : BitVector) : (s.setV r v).cause = s.cause := rfl
@[simp] theorem State.setV_fcmd (s : State) (r : VReg) (v : BitVector) : (s.setV r v).fcmd = s.fcmd := rfl
@[simp] theorem State.setV_rsp (s : State) (r : VReg) (v : BitVector) : (s.setV r v).rsp = s.rsp := rfl
@[simp] theorem State.setV_host (s : State) (r : VReg) (v : BitVector) : (s.setV r v).host = s.host := rfl
@[simp] theorem State.getXWord_setV (s : State) (r : VReg) (v : BitVector) (q : XReg) :
    (s.setV r v).getXWord q = s.getXWord q := rfl
@[simp] theorem State.getX_setV (s : State) (r : VReg) (v : BitVector) (q : XReg) : (s.setV r v).getX q = s.getX q := rfl

/-! ### `X[r] <- z` -/

@[simp] theorem State.setX_code (s : State) (r : XReg) (z : Int) : (s.setX r z).code = s.code := rfl
@[simp] theorem State.setX_live (s : State) (r : XReg) (z : Int) : (s.setX r z).live = s.live := rfl
@[simp] theorem State.setX_v (s : State) (r : XReg) (z : Int) : (s.setX r z).v = s.v := rfl
@[simp] theorem State.setX_found (s : State) (r : XReg) (z : Int) : (s.setX r z).found = s.found := rfl
@[simp] theorem State.setX_fault (s : State) (r : XReg) (z : Int) : (s.setX r z).fault = s.fault := rfl
@[simp] theorem State.setX_cause (s : State) (r : XReg) (z : Int) : (s.setX r z).cause = s.cause := rfl
@[simp] theorem State.setX_fcmd (s : State) (r : XReg) (z : Int) : (s.setX r z).fcmd = s.fcmd := rfl
@[simp] theorem State.setX_rsp (s : State) (r : XReg) (z : Int) : (s.setX r z).rsp = s.rsp := rfl
@[simp] theorem State.setX_host (s : State) (r : XReg) (z : Int) : (s.setX r z).host = s.host := rfl
@[simp] theorem State.getV_setX (s : State) (r : XReg) (z : Int) (q : VReg) : (s.setX r z).getV q = s.getV q := rfl

/-! ### `FLAGS.F <- b` -/

@[simp] theorem State.setFound_code (s : State) (b : Bool) : (s.setFound b).code = s.code := rfl
@[simp] theorem State.setFound_live (s : State) (b : Bool) : (s.setFound b).live = s.live := rfl
@[simp] theorem State.setFound_v (s : State) (b : Bool) : (s.setFound b).v = s.v := rfl
@[simp] theorem State.setFound_x (s : State) (b : Bool) : (s.setFound b).x = s.x := rfl
@[simp] theorem State.setFound_found (s : State) (b : Bool) : (s.setFound b).found = b := rfl
@[simp] theorem State.setFound_fault (s : State) (b : Bool) : (s.setFound b).fault = s.fault := rfl
@[simp] theorem State.setFound_cause (s : State) (b : Bool) : (s.setFound b).cause = s.cause := rfl
@[simp] theorem State.setFound_fcmd (s : State) (b : Bool) : (s.setFound b).fcmd = s.fcmd := rfl
@[simp] theorem State.setFound_rsp (s : State) (b : Bool) : (s.setFound b).rsp = s.rsp := rfl
@[simp] theorem State.setFound_host (s : State) (b : Bool) : (s.setFound b).host = s.host := rfl
@[simp] theorem State.getV_setFound (s : State) (b : Bool) (q : VReg) : (s.setFound b).getV q = s.getV q := rfl
@[simp] theorem State.getXWord_setFound (s : State) (b : Bool) (q : XReg) : (s.setFound b).getXWord q = s.getXWord q := rfl
@[simp] theorem State.getX_setFound (s : State) (b : Bool) (q : XReg) : (s.setFound b).getX q = s.getX q := rfl

/-! ### `raise` -/

@[simp] theorem State.raise_code (s : State) (k : Kind) (w : Word) : (s.raise k w).code = s.code := rfl
@[simp] theorem State.raise_live (s : State) (k : Kind) (w : Word) : (s.raise k w).live = s.live := rfl
@[simp] theorem State.raise_v (s : State) (k : Kind) (w : Word) : (s.raise k w).v = s.v := rfl
@[simp] theorem State.raise_x (s : State) (k : Kind) (w : Word) : (s.raise k w).x = s.x := rfl
@[simp] theorem State.raise_found (s : State) (k : Kind) (w : Word) : (s.raise k w).found = s.found := rfl
@[simp] theorem State.raise_fault (s : State) (k : Kind) (w : Word) : (s.raise k w).fault = true := rfl
@[simp] theorem State.raise_cause (s : State) (k : Kind) (w : Word) : (s.raise k w).cause = some k := rfl
@[simp] theorem State.raise_fcmd (s : State) (k : Kind) (w : Word) : (s.raise k w).fcmd = w := rfl
@[simp] theorem State.raise_rsp (s : State) (k : Kind) (w : Word) : (s.raise k w).rsp = s.rsp := rfl
@[simp] theorem State.raise_host (s : State) (k : Kind) (w : Word) : (s.raise k w).host = s.host := rfl
@[simp] theorem State.getV_raise (s : State) (k : Kind) (w : Word) (q : VReg) : (s.raise k w).getV q = s.getV q := rfl
@[simp] theorem State.getXWord_raise (s : State) (k : Kind) (w : Word) (q : XReg) :
    (s.raise k w).getXWord q = s.getXWord q := rfl
@[simp] theorem State.getX_raise (s : State) (k : Kind) (w : Word) (q : XReg) : (s.raise k w).getX q = s.getX q := rfl

/-! ### The response -/

@[simp] theorem State.respond_code (s : State) : s.respond.code = s.code := rfl
@[simp] theorem State.respond_live (s : State) : s.respond.live = s.live := rfl
@[simp] theorem State.respond_v (s : State) : s.respond.v = s.v := rfl
@[simp] theorem State.respond_x (s : State) : s.respond.x = s.x := rfl
@[simp] theorem State.respond_found (s : State) : s.respond.found = s.found := rfl
@[simp] theorem State.respond_fault (s : State) : s.respond.fault = s.fault := rfl
@[simp] theorem State.respond_cause (s : State) : s.respond.cause = s.cause := rfl
@[simp] theorem State.respond_fcmd (s : State) : s.respond.fcmd = s.fcmd := rfl
@[simp] theorem State.respond_rsp (s : State) : s.respond.rsp = some ⟨s.fault, causeCode s.cause⟩ := rfl
@[simp] theorem State.respond_host (s : State) : s.respond.host = s.host := rfl
@[simp] theorem State.getV_respond (s : State) (q : VReg) : s.respond.getV q = s.getV q := rfl
@[simp] theorem State.getX_respond (s : State) (q : XReg) : s.respond.getX q = s.getX q := rfl

/-! ### Reset -/

@[simp] theorem State.resetOf_code (c : CodeParams) (h : List HostMove) : (State.resetOf c h).code = c := rfl
@[simp] theorem State.resetOf_live (c : CodeParams) (h : List HostMove) : (State.resetOf c h).live = true := rfl
@[simp] theorem State.resetOf_found (c : CodeParams) (h : List HostMove) : (State.resetOf c h).found = false := rfl
@[simp] theorem State.resetOf_fault (c : CodeParams) (h : List HostMove) : (State.resetOf c h).fault = false := rfl
@[simp] theorem State.resetOf_cause (c : CodeParams) (h : List HostMove) : (State.resetOf c h).cause = none := rfl
@[simp] theorem State.resetOf_fcmd (c : CodeParams) (h : List HostMove) : (State.resetOf c h).fcmd = 0 := rfl
@[simp] theorem State.resetOf_rsp (c : CodeParams) (h : List HostMove) : (State.resetOf c h).rsp = none := rfl
@[simp] theorem State.resetOf_host (c : CodeParams) (h : List HostMove) : (State.resetOf c h).host = h := rfl

@[simp] theorem State.getV_resetOf (c : CodeParams) (h : List HostMove) (r : VReg) : (State.resetOf c h).getV r = [] := by
  simp [State.getV, State.resetOf, Vector.get_eq_getElem]

@[simp] theorem State.getXWord_resetOf (c : CodeParams) (h : List HostMove) (r : XReg) :
    (State.resetOf c h).getXWord r = 0 := by
  simp [State.getXWord, State.resetOf, Vector.get_eq_getElem]

@[simp] theorem State.getX_resetOf (c : CodeParams) (h : List HostMove) (r : XReg) : (State.resetOf c h).getX r = 0 := by
  simp [State.getX]

/-! ### Reading after writing -/

/-- Reading a vector register after writing one (R20, R70). -/
theorem State.getV_setV (s : State) (r q : VReg) (v : BitVector) :
    (s.setV r v).getV q = if q = r then v else s.getV q := by
  obtain ⟨r⟩ := r
  obtain ⟨q⟩ := q
  by_cases h : q = r
  · subst h
    simp [State.getV, State.setV, Vector.get_eq_getElem]
  · have h' : ¬ r.val = q.val := fun e => h (Fin.ext e.symm)
    simp [State.getV, State.setV, Vector.get_eq_getElem, h, h']

@[simp] theorem State.getV_setV_same (s : State) (r : VReg) (v : BitVector) : (s.setV r v).getV r = v := by
  simp [State.getV_setV]

@[simp] theorem State.getV_setV_of_ne (s : State) {r q : VReg} (v : BitVector) (h : q ≠ r) :
    (s.setV r v).getV q = s.getV q := by
  simp [State.getV_setV, h]

/-- Reading a scalar register after writing one, as a word (R22, R70). -/
theorem State.getXWord_setX (s : State) (r q : XReg) (z : Int) :
    (s.setX r z).getXWord q = if q = r then BitVec.ofInt 32 z else s.getXWord q := by
  obtain ⟨r⟩ := r
  obtain ⟨q⟩ := q
  by_cases h : q = r
  · subst h
    simp [State.getXWord, State.setX, Vector.get_eq_getElem]
  · have h' : ¬ r.val = q.val := fun e => h (Fin.ext e.symm)
    simp [State.getXWord, State.setX, Vector.get_eq_getElem, h, h']

/-- A scalar in range is read back as it was written: no scalar write wraps (R23). -/
theorem State.getX_setX_same (s : State) (r : XReg) {z : Int} (lo : -2 ^ 31 ≤ z) (hi : z < 2 ^ 31) :
    (s.setX r z).getX r = z := by
  simp only [State.getX, State.getXWord_setX, if_true]
  exact BitVec.toInt_ofInt_eq_self (by decide) (by omega) (by omega)

@[simp] theorem State.getX_setX_of_ne (s : State) {r q : XReg} (z : Int) (h : q ≠ r) :
    (s.setX r z).getX q = s.getX q := by
  simp [State.getX, State.getXWord_setX, h]

/-- A scalar register holds a 32-bit two's complement integer (R22). -/
theorem State.getX_range (s : State) (r : XReg) : -2 ^ 31 ≤ s.getX r ∧ s.getX r < 2 ^ 31 := by
  have h1 := BitVec.two_mul_toInt_lt (x := s.getXWord r)
  have h2 := BitVec.le_two_mul_toInt (x := s.getXWord r)
  unfold State.getX
  omega

end Sys2Proof.Machine
end

