-- ==== Sys2Proof/Laws/Ops.lean ====
section
/-! SUPPORT. What each shared operation can do, said once: cite these instead of unfolding the operation. -/

namespace Sys2Proof.Machine

variable {i : Instr} {rd rc : VReg} {v u : BitVector} {s t : State} {k : Kind}

/-! ### The fault entry and the writes -/

theorem raiseBy_eq : raiseBy k i s = .next (s.raise k (encode i)) := rfl

theorem raiseBy_eq_next : raiseBy k i s = .next t ↔ t = s.raise k (encode i) := by
  simp [raiseBy, eq_comm]

theorem writeScalar_eq {r : XReg} {z : Int} : writeScalar r z s = .next (s.setX r z) := rfl

theorem writeScalar_eq_next {r : XReg} {z : Int} : writeScalar r z s = .next t ↔ t = s.setX r z := by
  simp [writeScalar, eq_comm]

/-- A vector result that fits is written (R86 step 7). -/
theorem writeVector_of_le (h : v.length ≤ s.code.lmax) : writeVector i rd v s = .next (s.setV rd v) :=
  if_neg (Nat.not_lt.mpr h)

/-- A vector result that does not fit raises `Capacity` (R87). -/
theorem writeVector_of_lt (h : s.code.lmax < v.length) : writeVector i rd v s = .next (s.raise .capacity (encode i)) :=
  if_pos h

/-- Everything a vector write can do. -/
theorem writeVector_eq_next :
    writeVector i rd v s = .next t ↔
      (s.code.lmax < v.length ∧ t = s.raise .capacity (encode i)) ∨ (v.length ≤ s.code.lmax ∧ t = s.setV rd v) := by
  by_cases h : s.code.lmax < v.length
  · simp [writeVector_of_lt h, h, Nat.not_le.mpr h, eq_comm]
  · simp [writeVector_of_le (Nat.not_lt.mp h), h, Nat.not_lt.mp h, eq_comm]

/-- Two vector results that fit are both written (R65, R156). -/
theorem writeVectors_of_le (hv : v.length ≤ s.code.lmax) (hu : u.length ≤ s.code.lmax) :
    writeVectors i rd v rc u s = .next ((s.setV rd v).setV rc u) :=
  if_neg (by omega)

/-- Everything a write of two vectors can do. -/
theorem writeVectors_eq_next :
    writeVectors i rd v rc u s = .next t ↔
      ((s.code.lmax < v.length ∨ s.code.lmax < u.length) ∧ t = s.raise .capacity (encode i)) ∨
      (v.length ≤ s.code.lmax ∧ u.length ≤ s.code.lmax ∧ t = (s.setV rd v).setV rc u) := by
  unfold writeVectors
  split
  · rename_i h
    simp only [raiseBy_eq_next, h, true_and]
    constructor
    · exact fun e => .inl e
    · rintro (e | ⟨h1, h2, _⟩)
      · exact e
      · omega
  · rename_i h
    simp only [Host.Outcome.next.injEq, h, false_and, false_or]
    constructor
    · intro e
      exact ⟨by omega, by omega, e.symm⟩
    · exact fun e => e.2.2.symm

/-- Everything the end of a locator can do (R203, R204). -/
theorem writeLocated_eq_next {located : Except Kind (Option BitVector)} :
    writeLocated i rd located s = .next t ↔
      (∃ k, located = .error k ∧ t = s.raise k (encode i)) ∨
      (located = .ok none ∧ t = s.setFound false) ∨
      (∃ e, located = .ok (some e) ∧ s.code.lmax < e.length ∧ t = s.raise .capacity (encode i)) ∨
      (∃ e, located = .ok (some e) ∧ e.length ≤ s.code.lmax ∧ t = (s.setV rd e).setFound true) := by
  rcases located with k | _ | e
  · simp [writeLocated, raiseBy_eq_next]
  · simp [writeLocated, eq_comm]
  · by_cases h : s.code.lmax < e.length
    · simp [writeLocated, h, raiseBy_eq_next, Nat.not_le.mpr h]
    · simp [writeLocated, h, Nat.not_lt.mp h, eq_comm]

/-! ### The response -/

theorem answer_next : answer (.next s) = .next s.respond := rfl

theorem answer_eq_next {r : Result} : answer r = .next t ↔ ∃ u, r = .next u ∧ t = u.respond := by
  cases r <;> simp [answer, eq_comm]

/-! ### In range -/

theorem State.Bounded.length_le (h : s.Bounded) (r : VReg) : (s.getV r).length ≤ s.code.lmax := h.2 r.num

theorem State.bounded_of (hl : legal s.code = true) (h : ∀ r, (s.getV r).length ≤ s.code.lmax) : s.Bounded :=
  ⟨hl, fun i => h ⟨i⟩⟩

end Sys2Proof.Machine
end

