-- ==== Sys2Proof/Laws/Exec.lean ====
section
/-! SUPPORT. Everything a command can do to the state, said once over all 31 commands: cite this instead of unfolding a
meaning. -/

namespace Sys2Proof.Machine

/-- What `exec i` can make of `s`: a fault entry; one vector written; two vectors written; one scalar written; or the end of
an error locator (R65, R86). -/
inductive Effect (i : Instr) (s : State) : State → Prop where
  | fault (k : Kind) (hk : k.canOccur = true) (hv : k = .invalidElement → i.mnemonic = "VSET") :
      Effect i s (s.raise k (encode i))
  | vector (rd : VReg) (v : BitVector) (hd : (namedRegs i).vDests = [rd]) (hx : (namedRegs i).xDests = [])
      (hl : v.length ≤ s.code.lmax) : Effect i s (s.setV rd v)
  | vectors (rd rc : VReg) (v u : BitVector) (hd : (namedRegs i).vDests = [rd, rc]) (hx : (namedRegs i).xDests = [])
      (hl : v.length ≤ s.code.lmax) (hl' : u.length ≤ s.code.lmax) : Effect i s ((s.setV rd v).setV rc u)
  | scalar (rd : XReg) (z : Int) (hd : (namedRegs i).xDests = [rd]) (hx : (namedRegs i).vDests = []) :
      Effect i s (s.setX rd z)
  | notFound (hi : i.mnemonic = "FERR" ∨ i.mnemonic = "FPKG") : Effect i s (s.setFound false)
  | found (rd : VReg) (v : BitVector) (hi : i.mnemonic = "FERR" ∨ i.mnemonic = "FPKG")
      (hd : (namedRegs i).vDests = [rd]) (hx : (namedRegs i).xDests = []) (hl : v.length ≤ s.code.lmax) :
      Effect i s ((s.setV rd v).setFound true)

section

variable {i : Instr} {s t : State}

theorem effect_raiseBy {k : Kind} (hk : k.canOccur = true) (hv : k = .invalidElement → i.mnemonic = "VSET")
    (h : raiseBy k i s = .next t) : Effect i s t := by
  rw [raiseBy_eq_next] at h
  exact h ▸ .fault k hk hv

theorem effect_writeVector {rd : VReg} {v : BitVector} (hd : (namedRegs i).vDests = [rd])
    (hx : (namedRegs i).xDests = []) (h : writeVector i rd v s = .next t) : Effect i s t := by
  rw [writeVector_eq_next] at h
  obtain ⟨-, rfl⟩ | ⟨hl, rfl⟩ := h
  · exact .fault _ rfl (by simp)
  · exact .vector rd v hd hx hl

theorem effect_writeVectors {rd rc : VReg} {v u : BitVector} (hd : (namedRegs i).vDests = [rd, rc])
    (hx : (namedRegs i).xDests = []) (h : writeVectors i rd v rc u s = .next t) : Effect i s t := by
  rw [writeVectors_eq_next] at h
  obtain ⟨-, rfl⟩ | ⟨hl, hl', rfl⟩ := h
  · exact .fault _ rfl (by simp)
  · exact .vectors rd rc v u hd hx hl hl'

theorem effect_writeScalar {rd : XReg} {z : Int} (hd : (namedRegs i).xDests = [rd]) (hx : (namedRegs i).vDests = [])
    (h : writeScalar rd z s = .next t) : Effect i s t := by
  rw [writeScalar_eq_next] at h
  exact h ▸ .scalar rd z hd hx

/-- The only fault a scan can end with is that of the ROM query (R202, R174). -/
theorem scan_error {c : CodeParams} {accept : Poly → Except Kind Bool} {rem : Poly} {l : List Nat} {k : Kind}
    (ha : ∀ p e, accept p = .error e → e = .lengthTooShort) (h : scan c accept rem l = .error k) :
    k = .lengthTooShort := by
  induction l with
  | nil => simp [scan] at h
  | cons i l ih =>
    unfold scan at h
    split at h
    · rename_i e he
      obtain rfl : e = k := by simpa using h
      exact ha _ _ he
    · simp at h
    · exact ih h

theorem inBT_error {c : CodeParams} {p : Poly} {k : Kind} (h : inBT c p = .error k) : k = .lengthTooShort := by
  unfold inBT at h
  split at h <;> simp_all

theorem effect_writeLocated {rd : VReg} {w : BitVector} {accept : Poly → Except Kind Bool}
    (hi : i.mnemonic = "FERR" ∨ i.mnemonic = "FPKG") (hd : (namedRegs i).vDests = [rd])
    (hx : (namedRegs i).xDests = []) (ha : ∀ p e, accept p = .error e → e = .lengthTooShort)
    (h : writeLocated i rd (locate s.code w accept) s = .next t) : Effect i s t := by
  rw [writeLocated_eq_next] at h
  obtain ⟨k, hk, rfl⟩ | ⟨-, rfl⟩ | ⟨e, -, -, rfl⟩ | ⟨e, -, hl, rfl⟩ := h
  · obtain rfl := scan_error ha hk
    exact .fault _ rfl (by simp)
  · exact .notFound hi
  · exact .fault _ rfl (by simp)
  · exact .found rd e hi hd hx hl

end

/-! ### All commands -/

/-- The effect of a next state of any command. -/
theorem effect_of_exec {i : Instr} {s t : State} (h : exec i s = .next t) : Effect i s t := by
  cases i <;> simp only [exec] at h
  case xli => exact effect_writeScalar rfl rfl h
  case csrr =>
    simp only [execCsrr] at h
    split at h
    · exact effect_writeScalar rfl rfl h
    · exact effect_raiseBy rfl (by simp) h
  case gld => exact effect_writeVector rfl rfl h
  case vzero =>
    simp only [execVzero] at h
    repeat' split at h
    · exact effect_raiseBy rfl (by simp) h
    · exact effect_raiseBy rfl (by simp) h
    · exact effect_writeVector rfl rfl h
  case vlit =>
    simp only [execVlit] at h
    split at h
    · exact effect_writeVector rfl rfl h
    · exact effect_raiseBy rfl (by simp) h
  case vlen => exact effect_writeScalar rfl rfl h
  case vadd =>
    simp only [execVadd] at h
    split at h
    · exact effect_raiseBy rfl (by simp) h
    · exact effect_writeVector rfl rfl h
  case vget =>
    simp only [execVget] at h
    split at h
    · exact effect_raiseBy rfl (by simp) h
    · exact effect_writeScalar rfl rfl h
  case vslice =>
    simp only [execVslice] at h
    split at h
    · exact effect_raiseBy rfl (by simp) h
    · exact effect_writeVector rfl rfl h
  case vset =>
    simp only [execVset] at h
    repeat' split at h
    · exact effect_raiseBy rfl (fun _ => rfl) h
    · exact effect_raiseBy rfl (by simp) h
    · exact effect_writeVector rfl rfl h
  case vcat => exact effect_writeVector rfl rfl h
  case vwt => exact effect_writeScalar rfl rfl h
  case vror => exact effect_writeVector rfl rfl h
  case seq =>
    simp only [execSeq] at h
    repeat' split at h
    · exact effect_raiseBy rfl (by simp) h
    · exact effect_raiseBy rfl (by simp) h
    · exact effect_raiseBy rfl (by simp) h
    · exact effect_writeVector rfl rfl h
  case ptrim => exact effect_writeVector rfl rfl h
  case pmono =>
    simp only [execPmono] at h
    repeat' split at h
    · exact effect_raiseBy rfl (by simp) h
    · exact effect_raiseBy rfl (by simp) h
    · exact effect_writeVector rfl rfl h
  case pdeg => exact effect_writeScalar rfl rfl h
  case pwt => exact effect_writeScalar rfl rfl h
  case padd => exact effect_writeVector rfl rfl h
  case pmul => exact effect_writeVector rfl rfl h
  case pdivmod =>
    simp only [execPdivmod] at h
    repeat' split at h
    · exact effect_raiseBy rfl (by simp) h
    · exact effect_raiseBy rfl (by simp) h
    · exact effect_writeVectors rfl rfl h
  case pquo =>
    simp only [execPquo] at h
    split at h
    · exact effect_raiseBy rfl (by simp) h
    · exact effect_writeVector rfl rfl h
  case prem =>
    simp only [execPrem] at h
    split at h
    · exact effect_raiseBy rfl (by simp) h
    · exact effect_writeVector rfl rfl h
  case pword =>
    simp only [execPword] at h
    repeat' split at h
    · exact effect_raiseBy rfl (by simp) h
    · exact effect_raiseBy rfl (by simp) h
    · exact effect_writeVector rfl rfl h
  case enc =>
    simp only [execEnc] at h
    split at h
    · exact effect_raiseBy rfl (by simp) h
    · exact effect_writeVector rfl rfl h
  case dec =>
    simp only [execDec] at h
    split at h
    · exact effect_raiseBy rfl (by simp) h
    · exact effect_writeVector rfl rfl h
  case synd =>
    simp only [execSynd] at h
    split at h
    · exact effect_raiseBy rfl (by simp) h
    · exact effect_writeVector rfl rfl h
  case synr =>
    simp only [execSynr] at h
    split at h
    · exact effect_raiseBy rfl (by simp) h
    · exact effect_writeVector rfl rfl h
  case btq =>
    simp only [execBtq] at h
    split at h
    · rename_i hk
      obtain rfl := inBT_error hk
      exact effect_raiseBy rfl (by simp) h
    · exact effect_writeScalar rfl rfl h
  case ferr =>
    simp only [execFerr] at h
    split at h
    · exact effect_raiseBy rfl (by simp) h
    · exact effect_writeLocated (.inl rfl) rfl rfl (by simp [weightTest]) h
  case fpkg =>
    simp only [execFpkg] at h
    split at h
    · exact effect_raiseBy rfl (by simp) h
    · exact effect_writeLocated (.inr rfl) rfl rfl (fun _ _ he => inBT_error he) h

end Sys2Proof.Machine
end

