-- ==== Sys2Proof/Laws/PerInstr.lean ====
section
/-! SUPPORT. Statements made per command. Family Opcode: the word of a command carries the opcode of its row in
`30_encoding.md` R84. -/

namespace Sys2Proof.Laws.Opcode

/-- The row of R84 with the command's mnemonic has the opcode of the command's word. -/
def Statement (i : Instr) : Prop :=
  ∃ r ∈ opcodeMap, r.mnemonic = i.mnemonic ∧ opcodeOf r.pattern = opcodeOf (encode i)

/-- A row found by its mnemonic, and the opcode of both sides. -/
theorem of_row {i : Instr} (r : OpcodeRow) (hr : r ∈ opcodeMap) (hm : r.mnemonic = i.mnemonic) {n : Nat}
    (hp : opcodeOf r.pattern = n) (he : opcodeOf (encode i) = n) : Statement i :=
  ⟨r, hr, hm, hp.trans he.symm⟩

theorem xli (rd : XReg) (imm20 : BitVec 20) : Statement (.xli rd imm20) :=
  of_row ⟨"XLI", 0x01000000, 0xFF000000⟩ (by decide) rfl (n := 0x01) (by decide)
    (opcodeOf_formatI (by decide) rd.num.isLt imm20.isLt)

theorem csrr (rd : XReg) (imm20 : BitVec 20) : Statement (.csrr rd imm20) :=
  of_row ⟨"CSRR", 0x02000000, 0xFF000000⟩ (by decide) rfl (n := 0x02) (by decide)
    (opcodeOf_formatI (by decide) rd.num.isLt imm20.isLt)

theorem gld (rd : VReg) : Statement (.gld rd) :=
  of_row ⟨"GLD", 0x03000000, 0xFF0FFFFF⟩ (by decide) rfl (n := 0x03) (by decide)
    (opcodeOf_formatR (by decide) rd.num.isLt (by decide) (by decide) (by decide))

theorem vzero (rd : VReg) (ra : XReg) : Statement (.vzero rd ra) :=
  of_row ⟨"VZERO", 0x10000000, 0xFF00FFFF⟩ (by decide) rfl (n := 0x10) (by decide)
    (opcodeOf_formatR (by decide) rd.num.isLt ra.num.isLt (by decide) (by decide))

theorem vlit (rd : VReg) (len : BitVec 4) (bits : BitVec 16) : Statement (.vlit rd len bits) :=
  of_row ⟨"VLIT", 0x11000000, 0xFF000000⟩ (by decide) rfl (n := 0x11) (by decide)
    (opcodeOf_formatL (by decide) rd.num.isLt len.isLt bits.isLt)

theorem vlen (rd : XReg) (ra : VReg) : Statement (.vlen rd ra) :=
  of_row ⟨"VLEN", 0x12000000, 0xFF00FFFF⟩ (by decide) rfl (n := 0x12) (by decide)
    (opcodeOf_formatR (by decide) rd.num.isLt ra.num.isLt (by decide) (by decide))

theorem vadd (rd : VReg) (ra : VReg) (rb : VReg) : Statement (.vadd rd ra rb) :=
  of_row ⟨"VADD", 0x13000000, 0xFF000FFF⟩ (by decide) rfl (n := 0x13) (by decide)
    (opcodeOf_formatR (by decide) rd.num.isLt ra.num.isLt rb.num.isLt (by decide))

theorem vget (rd : XReg) (ra : VReg) (rb : XReg) : Statement (.vget rd ra rb) :=
  of_row ⟨"VGET", 0x14000000, 0xFF000FFF⟩ (by decide) rfl (n := 0x14) (by decide)
    (opcodeOf_formatR (by decide) rd.num.isLt ra.num.isLt rb.num.isLt (by decide))

theorem vslice (rd : VReg) (ra : VReg) (rb : XReg) (rc : XReg) : Statement (.vslice rd ra rb rc) :=
  of_row ⟨"VSLICE", 0x15000000, 0xFF0000FF⟩ (by decide) rfl (n := 0x15) (by decide)
    (opcodeOf_formatR (by decide) rd.num.isLt ra.num.isLt rb.num.isLt rc.num.isLt)

theorem vset (rd : VReg) (ra : XReg) (rb : XReg) : Statement (.vset rd ra rb) :=
  of_row ⟨"VSET", 0x16000000, 0xFF000FFF⟩ (by decide) rfl (n := 0x16) (by decide)
    (opcodeOf_formatR (by decide) rd.num.isLt ra.num.isLt rb.num.isLt (by decide))

theorem vcat (rd : VReg) (ra : VReg) (rb : VReg) : Statement (.vcat rd ra rb) :=
  of_row ⟨"VCAT", 0x17000000, 0xFF000FFF⟩ (by decide) rfl (n := 0x17) (by decide)
    (opcodeOf_formatR (by decide) rd.num.isLt ra.num.isLt rb.num.isLt (by decide))

theorem vwt (rd : XReg) (ra : VReg) : Statement (.vwt rd ra) :=
  of_row ⟨"VWT", 0x18000000, 0xFF00FFFF⟩ (by decide) rfl (n := 0x18) (by decide)
    (opcodeOf_formatR (by decide) rd.num.isLt ra.num.isLt (by decide) (by decide))

theorem vror (rd : VReg) (ra : VReg) (rb : XReg) : Statement (.vror rd ra rb) :=
  of_row ⟨"VROR", 0x19000000, 0xFF000FFF⟩ (by decide) rfl (n := 0x19) (by decide)
    (opcodeOf_formatR (by decide) rd.num.isLt ra.num.isLt rb.num.isLt (by decide))

theorem seq (rd : VReg) (ra : XReg) (rb : XReg) : Statement (.seq rd ra rb) :=
  of_row ⟨"SEQ", 0x20000000, 0xFF000FFF⟩ (by decide) rfl (n := 0x20) (by decide)
    (opcodeOf_formatR (by decide) rd.num.isLt ra.num.isLt rb.num.isLt (by decide))

theorem ptrim (rd : VReg) (ra : VReg) : Statement (.ptrim rd ra) :=
  of_row ⟨"PTRIM", 0x30000000, 0xFF00FFFF⟩ (by decide) rfl (n := 0x30) (by decide)
    (opcodeOf_formatR (by decide) rd.num.isLt ra.num.isLt (by decide) (by decide))

theorem pmono (rd : VReg) (ra : XReg) : Statement (.pmono rd ra) :=
  of_row ⟨"PMONO", 0x31000000, 0xFF00FFFF⟩ (by decide) rfl (n := 0x31) (by decide)
    (opcodeOf_formatR (by decide) rd.num.isLt ra.num.isLt (by decide) (by decide))

theorem pdeg (rd : XReg) (ra : VReg) : Statement (.pdeg rd ra) :=
  of_row ⟨"PDEG", 0x32000000, 0xFF00FFFF⟩ (by decide) rfl (n := 0x32) (by decide)
    (opcodeOf_formatR (by decide) rd.num.isLt ra.num.isLt (by decide) (by decide))

theorem pwt (rd : XReg) (ra : VReg) : Statement (.pwt rd ra) :=
  of_row ⟨"PWT", 0x33000000, 0xFF00FFFF⟩ (by decide) rfl (n := 0x33) (by decide)
    (opcodeOf_formatR (by decide) rd.num.isLt ra.num.isLt (by decide) (by decide))

theorem padd (rd : VReg) (ra : VReg) (rb : VReg) : Statement (.padd rd ra rb) :=
  of_row ⟨"PADD", 0x34000000, 0xFF000FFF⟩ (by decide) rfl (n := 0x34) (by decide)
    (opcodeOf_formatR (by decide) rd.num.isLt ra.num.isLt rb.num.isLt (by decide))

theorem pmul (rd : VReg) (ra : VReg) (rb : VReg) : Statement (.pmul rd ra rb) :=
  of_row ⟨"PMUL", 0x35000000, 0xFF000FFF⟩ (by decide) rfl (n := 0x35) (by decide)
    (opcodeOf_formatR (by decide) rd.num.isLt ra.num.isLt rb.num.isLt (by decide))

theorem pdivmod (rd : VReg) (ra : VReg) (rb : VReg) (rc : VReg) : Statement (.pdivmod rd ra rb rc) :=
  of_row ⟨"PDIVMOD", 0x36000000, 0xFF0000FF⟩ (by decide) rfl (n := 0x36) (by decide)
    (opcodeOf_formatR (by decide) rd.num.isLt ra.num.isLt rb.num.isLt rc.num.isLt)

theorem pquo (rd : VReg) (ra : VReg) (rb : VReg) : Statement (.pquo rd ra rb) :=
  of_row ⟨"PQUO", 0x37000000, 0xFF000FFF⟩ (by decide) rfl (n := 0x37) (by decide)
    (opcodeOf_formatR (by decide) rd.num.isLt ra.num.isLt rb.num.isLt (by decide))

theorem prem (rd : VReg) (ra : VReg) (rb : VReg) : Statement (.prem rd ra rb) :=
  of_row ⟨"PREM", 0x38000000, 0xFF000FFF⟩ (by decide) rfl (n := 0x38) (by decide)
    (opcodeOf_formatR (by decide) rd.num.isLt ra.num.isLt rb.num.isLt (by decide))

theorem pword (rd : VReg) (ra : VReg) (rb : XReg) : Statement (.pword rd ra rb) :=
  of_row ⟨"PWORD", 0x39000000, 0xFF000FFF⟩ (by decide) rfl (n := 0x39) (by decide)
    (opcodeOf_formatR (by decide) rd.num.isLt ra.num.isLt rb.num.isLt (by decide))

theorem enc (rd : VReg) (ra : VReg) : Statement (.enc rd ra) :=
  of_row ⟨"ENC", 0x40000000, 0xFF00FFFF⟩ (by decide) rfl (n := 0x40) (by decide)
    (opcodeOf_formatR (by decide) rd.num.isLt ra.num.isLt (by decide) (by decide))

theorem dec (rd : VReg) (ra : VReg) : Statement (.dec rd ra) :=
  of_row ⟨"DEC", 0x41000000, 0xFF00FFFF⟩ (by decide) rfl (n := 0x41) (by decide)
    (opcodeOf_formatR (by decide) rd.num.isLt ra.num.isLt (by decide) (by decide))

theorem synd (rd : VReg) (ra : VReg) : Statement (.synd rd ra) :=
  of_row ⟨"SYND", 0x42000000, 0xFF00FFFF⟩ (by decide) rfl (n := 0x42) (by decide)
    (opcodeOf_formatR (by decide) rd.num.isLt ra.num.isLt (by decide) (by decide))

theorem synr (rd : VReg) (ra : VReg) (rb : XReg) : Statement (.synr rd ra rb) :=
  of_row ⟨"SYNR", 0x43000000, 0xFF000FFF⟩ (by decide) rfl (n := 0x43) (by decide)
    (opcodeOf_formatR (by decide) rd.num.isLt ra.num.isLt rb.num.isLt (by decide))

theorem btq (rd : XReg) (ra : VReg) : Statement (.btq rd ra) :=
  of_row ⟨"BTQ", 0x44000000, 0xFF00FFFF⟩ (by decide) rfl (n := 0x44) (by decide)
    (opcodeOf_formatR (by decide) rd.num.isLt ra.num.isLt (by decide) (by decide))

theorem ferr (rd : VReg) (ra : VReg) : Statement (.ferr rd ra) :=
  of_row ⟨"FERR", 0x45000000, 0xFF00FFFF⟩ (by decide) rfl (n := 0x45) (by decide)
    (opcodeOf_formatR (by decide) rd.num.isLt ra.num.isLt (by decide) (by decide))

theorem fpkg (rd : VReg) (ra : VReg) : Statement (.fpkg rd ra) :=
  of_row ⟨"FPKG", 0x46000000, 0xFF00FFFF⟩ (by decide) rfl (n := 0x46) (by decide)
    (opcodeOf_formatR (by decide) rd.num.isLt ra.num.isLt (by decide) (by decide))

end Sys2Proof.Laws.Opcode
end

