-- ==== Sys2Proof/Machine/Text.lean ====
section
/-! DEFINITION. Notation of the spec, used by no command: the renderings of `00_scope.md` R13 and R14 and the assembler
text of `30_encoding.md` R89. -/

namespace Sys2Proof.Machine

/-- The digits of a vector, index 0 leftmost, a dot after every 4th digit except at the end (R13). -/
def renderDigits : BitVector → List Char
  | a :: b :: c :: d :: e :: rest => [a, b, c, d].map digit ++ '.' :: renderDigits (e :: rest)
  | v => v.map digit
where
  digit (b : Bool) : Char := if b then '1' else '0'

/-- The rendering of a bit vector (R13). -/
def renderVector (v : BitVector) : String := String.ofList (renderDigits v)

/-- The term of exponent `i` (R14). -/
def renderTerm : Nat → String
  | 0 => "1"
  | 1 => "x"
  | i => "x^" ++ toString i

/-- The rendering of a polynomial: its terms in ascending exponent joined by " + ", "0" for the zero polynomial (R14). -/
def renderPoly (a : Poly) : String :=
  if a = [] then "0"
  else String.intercalate " + " (((List.range a.length).filter fun i => a.getD i false).map renderTerm)

/-- The name of a vector register in assembler text (R89). -/
def vName (r : VReg) : String := "v" ++ toString r.num.val

/-- The name of a scalar register in assembler text (R89). -/
def xName (r : XReg) : String := "x" ++ toString r.num.val

/-- The bracketed literal of VLIT, index 0 first (R89). -/
def literalText (v : BitVector) : String :=
  "[" ++ String.intercalate "," (v.map fun b => if b then "1" else "0") ++ "]"

/-- The operands of a command in the order of R81, which is `rd, ra, rb, rc` but for PDIVMOD. -/
def operandTexts : Instr → List String
  | .xli rd imm20 => [xName rd, toString (scalarImmediate imm20)]
  | .csrr rd imm20 => [xName rd, toString (csrNumber imm20)]
  | .gld rd => [vName rd]
  | .vzero rd ra => [vName rd, xName ra]
  | .vlit rd len bits => [vName rd, literalText (vectorLiteral len bits)]
  | .vlen rd ra => [xName rd, vName ra]
  | .vadd rd ra rb => [vName rd, vName ra, vName rb]
  | .vget rd ra rb => [xName rd, vName ra, xName rb]
  | .vslice rd ra rb rc => [vName rd, vName ra, xName rb, xName rc]
  | .vset rd ra rb => [vName rd, xName ra, xName rb]
  | .vcat rd ra rb => [vName rd, vName ra, vName rb]
  | .vwt rd ra => [xName rd, vName ra]
  | .vror rd ra rb => [vName rd, vName ra, xName rb]
  | .seq rd ra rb => [vName rd, xName ra, xName rb]
  | .ptrim rd ra => [vName rd, vName ra]
  | .pmono rd ra => [vName rd, xName ra]
  | .pdeg rd ra => [xName rd, vName ra]
  | .pwt rd ra => [xName rd, vName ra]
  | .padd rd ra rb => [vName rd, vName ra, vName rb]
  | .pmul rd ra rb => [vName rd, vName ra, vName rb]
  | .pdivmod rd ra rb rc => [vName rd, vName rc, vName ra, vName rb]
  | .pquo rd ra rb => [vName rd, vName ra, vName rb]
  | .prem rd ra rb => [vName rd, vName ra, vName rb]
  | .pword rd ra rb => [vName rd, vName ra, xName rb]
  | .enc rd ra => [vName rd, vName ra]
  | .dec rd ra => [vName rd, vName ra]
  | .synd rd ra => [vName rd, vName ra]
  | .synr rd ra rb => [vName rd, vName ra, xName rb]
  | .btq rd ra => [xName rd, vName ra]
  | .ferr rd ra => [vName rd, vName ra]
  | .fpkg rd ra => [vName rd, vName ra]

/-- The assembler text of a command (R89). -/
def asmText (i : Instr) : String := i.mnemonic ++ " " ++ String.intercalate ", " (operandTexts i)

end Sys2Proof.Machine
end

