-- ==== Sys2Proof/Tests/Slice0.lean ====
section
/-! SUPPORT. Own tests: well-formedness, decoding of words written out in `30_encoding.md` and `95_test_vectors.md`, one step
of each command, and for each statement with hypotheses a witness that meets them. Expected values are those of
`95_test_vectors.md` (the vector's name stands in the comment), else worked by hand from the rule cited. -/

namespace Sys2Proof.Machine.Tests

/-! ### Helpers -/

abbrev vr (n : Fin 16) : VReg := ⟨n⟩
abbrev xr (n : Fin 16) : XReg := ⟨n⟩

/-- A vector from its digits, index 0 first. -/
def bv (l : List Nat) : BitVector := l.map fun b => b == 1

/-- A block of the parameter set after reset. -/
def blk (c : CodeParams) : State := State.resetOf c []

/-- Instances A and B of the vectors; the instances of L7 and L12, and `(7, [1,1,0,1], 0)`. -/
def bA : State := blk Config.codeA
def bB : State := blk Config.codeB
def bL7 : State := blk ⟨7, bv [1, 1, 1, 0, 1], 0, 64⟩
def bL12 : State := blk ⟨7, bv [1, 1, 1, 0, 1], 1, 64⟩
def bP0 : State := blk ⟨7, bv [1, 1, 0, 1], 0, 64⟩
/-- A block with the smallest `LMAX` a code of length 7 can have. -/
def bSmall : State := blk ⟨7, bv [1, 1, 0, 1], 1, 7⟩

def nextOf : Result → Option State
  | .next t => some t
  | .fault _ => none
  | .refused _ => none

def vAfter (r : Result) (q : VReg) : Option BitVector := (nextOf r).map fun t => t.getV q
def xAfter (r : Result) (q : XReg) : Option Int := (nextOf r).map fun t => t.getX q
def foundAfter (r : Result) : Option Bool := (nextOf r).map fun t => t.found
def causeAfter (r : Result) : Option (BitVec 4) := (nextOf r).map fun t => causeCode t.cause

/-! ### Well-formedness: one ill-formed command for each check of R84 -/

theorem test_wellFormed_csrNumber : (Instr.csrr (xr 0) 10).wellFormed = false ∧ (Instr.csrr (xr 0) 9).wellFormed = true := by
  decide

theorem test_wellFormed_literalBits :
    (Instr.vlit (vr 0) 2 4).wellFormed = false ∧ (Instr.vlit (vr 0) 2 3).wellFormed = true ∧
    (Instr.vlit (vr 0) 15 0x8000).wellFormed = false ∧ (Instr.vlit (vr 0) 0 0).wellFormed = true := by
  decide

theorem test_wellFormed_sameDestination :
    (Instr.pdivmod (vr 2) (vr 0) (vr 1) (vr 2)).wellFormed = false ∧
    (Instr.pdivmod (vr 2) (vr 0) (vr 1) (vr 3)).wellFormed = true := by
  decide

/-! ### Decoding -/

/-- A word for each command: section 8 and the programs of `95_test_vectors.md`; VLEN, VGET, PTRIM, PQUO and PREM by hand
from R81 and R84. -/
theorem test_decode_system :
    decode 0x01880000 = .ok (.xli (xr 8) 0x80000) ∧
    decode 0x02400002 = .ok (.csrr (xr 4) 2) ∧
    decode 0x03700000 = .ok (.gld (vr 7)) := by
  decide

theorem test_decode_bitvector :
    decode 0x10120000 = .ok (.vzero (vr 1) (xr 2)) ∧
    decode 0x112F6001 = .ok (.vlit (vr 2) 15 0x6001) ∧
    decode 0x12A50000 = .ok (.vlen (xr 10) (vr 5)) ∧
    decode 0x13312000 = .ok (.vadd (vr 3) (vr 1) (vr 2)) ∧
    decode 0x14201000 = .ok (.vget (xr 2) (vr 0) (xr 1)) ∧
    decode 0x15210100 = .ok (.vslice (vr 2) (vr 1) (xr 0) (xr 1)) ∧
    decode 0x16012000 = .ok (.vset (vr 0) (xr 1) (xr 2)) ∧
    decode 0x17201000 = .ok (.vcat (vr 2) (vr 0) (vr 1)) ∧
    decode 0x18140000 = .ok (.vwt (xr 1) (vr 4)) ∧
    decode 0x19323000 = .ok (.vror (vr 3) (vr 2) (xr 3)) := by
  decide

theorem test_decode_sequence :
    decode 0x20001000 = .ok (.seq (vr 0) (xr 0) (xr 1)) := by
  decide

theorem test_decode_polynomial :
    decode 0x30F90000 = .ok (.ptrim (vr 15) (vr 9)) ∧
    decode 0x31100000 = .ok (.pmono (vr 1) (xr 0)) ∧
    decode 0x32140000 = .ok (.pdeg (xr 1) (vr 4)) ∧
    decode 0x33240000 = .ok (.pwt (xr 2) (vr 4)) ∧
    decode 0x34312000 = .ok (.padd (vr 3) (vr 1) (vr 2)) ∧
    decode 0x35640000 = .ok (.pmul (vr 6) (vr 4) (vr 0)) ∧
    decode 0x36430500 = .ok (.pdivmod (vr 4) (vr 3) (vr 0) (vr 5)) ∧
    decode 0x37BC7000 = .ok (.pquo (vr 11) (vr 12) (vr 7)) ∧
    decode 0x38BC7000 = .ok (.prem (vr 11) (vr 12) (vr 7)) ∧
    decode 0x39329000 = .ok (.pword (vr 3) (vr 2) (xr 9)) := by
  decide

theorem test_decode_cyclicCode :
    decode 0x40100000 = .ok (.enc (vr 1) (vr 0)) ∧
    decode 0x41650000 = .ok (.dec (vr 6) (vr 5)) ∧
    decode 0x42730000 = .ok (.synd (vr 7) (vr 3)) ∧
    decode 0x43218000 = .ok (.synr (vr 2) (vr 1) (xr 8)) ∧
    decode 0x44430000 = .ok (.btq (xr 4) (vr 3)) := by
  decide

theorem test_decode_errorLocator :
    decode 0x45430000 = .ok (.ferr (vr 4) (vr 3)) ∧
    decode 0x46430000 = .ok (.fpkg (vr 4) (vr 3)) := by
  decide

/-- The illegal words of section 8, each with the reason. -/
theorem test_decode_illegal :
    decode 0x00000000 = .error .unknownOpcode ∧ decode 0xFFFFFFFF = .error .unknownOpcode ∧
    decode 0x1A000000 = .error .unknownOpcode ∧ decode 0x40100001 = .error .nonzeroUnused ∧
    decode 0x40101000 = .error .nonzeroUnused ∧ decode 0x0200000A = .error .csrNumber ∧
    decode 0x11020004 = .error .literalBits ∧ decode 0x36201200 = .error .sameDestination ∧
    decode 0x03710000 = .error .nonzeroUnused := by
  decide

/-- A table word given with fewer bits has zeros above them. -/
theorem test_decodeTableWord :
    decodeTableWord 32 0x45430000 = some (.ferr (vr 4) (vr 3)) ∧ decodeTableWord 24 0x45430000 = none ∧
    decodeTableWord 32 0x40100001 = none := by
  decide

/-! ### One step of each command -/

section

/-- V1 and V2 of most vectors: `[1,1,0,0,1,0,1]` and `[0,1,0,0,0,0,0]`. -/
def c7 : BitVector := bv [1, 1, 0, 0, 1, 0, 1]
def e7 : BitVector := bv [0, 1, 0, 0, 0, 0, 0]

/-- Y1; and the smallest immediate (R220). -/
theorem test_xli :
    xAfter (exec (.xli (xr 1) 0xFFFFF) bA) (xr 1) = some (-1) ∧
    xAfter (exec (.xli (xr 8) 0x80000) bA) (xr 8) = some (-524288) := by
  decide

/-- Y2, Y3, Y4. -/
theorem test_csrr :
    (List.range 6).map (fun m => xAfter (exec (.csrr (xr 3) (BitVec.ofNat 20 m)) bA) (xr 3))
      = [some 7, some 3, some 4, some 1, some 1, some 64] ∧
    xAfter (exec (.csrr (xr 0) 6) (bA.setFound true)) (xr 0) = some 1 ∧
    [7, 8, 9].map (fun m => xAfter (exec (.csrr (xr 3) (BitVec.ofNat 20 m)) bA) (xr 3)) = [some 0, some 0, some 0] := by
  decide

/-- Y6. -/
theorem test_gld :
    vAfter (exec (.gld (vr 7)) bA) (vr 7) = some (bv [1, 1, 0, 1]) := by
  decide

/-- V1, V2. -/
theorem test_vzero :
    vAfter (exec (.vzero (vr 0) (xr 1)) (bA.setX (xr 1) 4)) (vr 0) = some (bv [0, 0, 0, 0]) ∧
    vAfter (exec (.vzero (vr 0) (xr 1)) (bA.setV (vr 0) e7)) (vr 0) = some [] := by
  decide

/-- V3, V4. -/
theorem test_vzero_faults :
    causeAfter (exec (.vzero (vr 0) (xr 1)) (bA.setX (xr 1) (-1))) = some 9 ∧
    causeAfter (exec (.vzero (vr 0) (xr 1)) (bA.setX (xr 1) 65)) = some 11 := by
  decide

/-- V5, V6. -/
theorem test_vlit :
    vAfter (exec (.vlit (vr 0) 4 9) bA) (vr 0) = some (bv [1, 0, 0, 1]) ∧
    vAfter (exec (.vlit (vr 5) 0 0) (bA.setV (vr 5) e7)) (vr 5) = some [] := by
  decide

/-- V7 by its word; R87 on a block with `LMAX = 7`. -/
theorem test_vlit_faults :
    causeAfter (step (bA.withFetchWord 32 0x11020004)) = some 12 ∧
    causeAfter (exec (.vlit (vr 0) 8 0) bSmall) = some 11 := by
  decide

/-- V8. -/
theorem test_vlen :
    xAfter (exec (.vlen (xr 0) (vr 1)) (bA.setV (vr 1) c7)) (xr 0) = some 7 := by
  decide

/-- V9, V10. -/
theorem test_vadd :
    vAfter (exec (.vadd (vr 3) (vr 1) (vr 2)) ((bA.setV (vr 1) c7).setV (vr 2) e7)) (vr 3)
      = some (bv [1, 0, 0, 0, 1, 0, 1]) ∧
    vAfter (exec (.vadd (vr 1) (vr 1) (vr 1)) (bA.setV (vr 1) c7)) (vr 1) = some (bv [0, 0, 0, 0, 0, 0, 0]) := by
  decide

/-- V12. -/
theorem test_vadd_fault :
    causeAfter (exec (.vadd (vr 2) (vr 0) (vr 1)) ((bA.setV (vr 0) (bv [1, 0, 1])).setV (vr 1) (bv [1, 1]))) = some 4 := by
  decide

/-- V13, V14, V15. -/
theorem test_vget :
    xAfter (exec (.vget (xr 2) (vr 0) (xr 1)) ((bA.setV (vr 0) (bv [1, 0, 0, 1])).setX (xr 1) 3)) (xr 2) = some 1 ∧
    causeAfter (exec (.vget (xr 2) (vr 0) (xr 1)) ((bA.setV (vr 0) (bv [1, 0, 0, 1])).setX (xr 1) 4)) = some 9 ∧
    causeAfter (exec (.vget (xr 2) (vr 0) (xr 1)) ((bA.setV (vr 0) (bv [1, 0, 0, 1])).setX (xr 1) (-1))) = some 9 := by
  decide

/-- V16, V17. -/
theorem test_vslice :
    vAfter (exec (.vslice (vr 2) (vr 1) (xr 0) (xr 1)) (((bA.setV (vr 1) c7).setX (xr 0) 2).setX (xr 1) 5)) (vr 2)
      = some (bv [0, 0, 1]) ∧
    vAfter (exec (.vslice (vr 2) (vr 1) (xr 0) (xr 1)) (((bA.setV (vr 1) c7).setX (xr 0) 7).setX (xr 1) 7)) (vr 2) = some [] := by
  decide

/-- V18, V19. -/
theorem test_vslice_faults :
    causeAfter (exec (.vslice (vr 2) (vr 1) (xr 0) (xr 1)) (((bA.setV (vr 1) c7).setX (xr 0) 0).setX (xr 1) 8)) = some 9 ∧
    causeAfter (exec (.vslice (vr 2) (vr 1) (xr 0) (xr 1)) (((bA.setV (vr 1) c7).setX (xr 0) 3).setX (xr 1) 2)) = some 9 := by
  decide

/-- V20. -/
theorem test_vset :
    vAfter (exec (.vset (vr 0) (xr 1) (xr 2)) (((bA.setV (vr 0) (bv [0, 0, 0, 0])).setX (xr 1) 3).setX (xr 2) 1)) (vr 0)
      = some (bv [0, 0, 0, 1]) := by
  decide

/-- V22, V23. -/
theorem test_vset_faults :
    causeAfter (exec (.vset (vr 0) (xr 1) (xr 2)) (((bA.setV (vr 0) (bv [0, 0, 0, 0])).setX (xr 1) 9).setX (xr 2) 2)) = some 1 ∧
    causeAfter (exec (.vset (vr 0) (xr 1) (xr 2)) (((bA.setV (vr 0) (bv [0, 0, 0, 0])).setX (xr 1) 4).setX (xr 2) 1)) = some 9 := by
  decide

/-- V24; and R87 on a block with `LMAX = 7`. -/
theorem test_vcat :
    vAfter (exec (.vcat (vr 2) (vr 0) (vr 1)) ((bA.setV (vr 0) (bv [1, 0])).setV (vr 1) (bv [0, 1, 1]))) (vr 2)
      = some (bv [1, 0, 0, 1, 1]) ∧
    causeAfter (exec (.vcat (vr 2) (vr 0) (vr 1)) ((bSmall.setV (vr 0) c7).setV (vr 1) (bv [0]))) = some 11 := by
  decide

/-- V26. -/
theorem test_vwt :
    xAfter (exec (.vwt (xr 0) (vr 1)) (bA.setV (vr 1) c7)) (xr 0) = some 4 := by
  decide

/-- The VROR table of section 2: amounts 3, 8, -3 and -9. -/
theorem test_vror :
    vAfter (exec (.vror (vr 1) (vr 0) (xr 0)) ((bA.setV (vr 0) c7).setX (xr 0) (3))) (vr 1) = some (bv [1, 0, 1, 1, 1, 0, 0]) ∧
    vAfter (exec (.vror (vr 1) (vr 0) (xr 0)) ((bA.setV (vr 0) c7).setX (xr 0) (8))) (vr 1) = some (c7) ∧
    vAfter (exec (.vror (vr 1) (vr 0) (xr 0)) ((bA.setV (vr 0) c7).setX (xr 0) (-3))) (vr 1) = some (bv [0, 1, 0, 1, 1, 1, 0]) ∧
    vAfter (exec (.vror (vr 1) (vr 0) (xr 0)) ((bA.setV (vr 0) c7).setX (xr 0) (-9))) (vr 1) = some (c7) := by
  decide

/-- Q8, Q1, Q5. -/
theorem test_seq :
    vAfter (exec (.seq (vr 0) (xr 0) (xr 1)) ((bA.setX (xr 0) 4).setX (xr 1) 10)) (vr 0) = some (bv [1, 1, 0, 1]) ∧
    vAfter (exec (.seq (vr 0) (xr 0) (xr 1)) ((bA.setX (xr 0) 3).setX (xr 1) 0)) (vr 0) = some (bv [0, 1, 1]) ∧
    vAfter (exec (.seq (vr 0) (xr 0) (xr 1)) ((bA.setX (xr 0) 0).setX (xr 1) 0)) (vr 0) = some [] := by
  decide

/-- Q4, Q6, Q7; and `L = 65` with a position below `2^65` (R132). -/
theorem test_seq_faults :
    causeAfter (exec (.seq (vr 0) (xr 0) (xr 1)) ((bA.setX (xr 0) 3).setX (xr 1) 8)) = some 9 ∧
    causeAfter (exec (.seq (vr 0) (xr 0) (xr 1)) ((bA.setX (xr 0) 0).setX (xr 1) 1)) = some 9 ∧
    causeAfter (exec (.seq (vr 0) (xr 0) (xr 1)) ((bA.setX (xr 0) (-1)).setX (xr 1) 0)) = some 9 ∧
    causeAfter (exec (.seq (vr 0) (xr 0) (xr 1)) ((bA.setX (xr 0) 65).setX (xr 1) 2147483647)) = some 11 := by
  decide

/-- P1, P2. -/
theorem test_ptrim :
    vAfter (exec (.ptrim (vr 1) (vr 0)) (bA.setV (vr 0) (bv [1, 1, 0, 1, 0, 0, 0]))) (vr 1) = some (bv [1, 1, 0, 1]) ∧
    vAfter (exec (.ptrim (vr 1) (vr 0)) (bA.setV (vr 0) (bv [0, 0, 0]))) (vr 1) = some [] := by
  decide

/-- P3, P5, P6. -/
theorem test_pmono :
    vAfter (exec (.pmono (vr 0) (xr 0)) (bA.setX (xr 0) 3)) (vr 0) = some (bv [0, 0, 0, 1]) ∧
    causeAfter (exec (.pmono (vr 0) (xr 0)) (bA.setX (xr 0) (-1))) = some 6 ∧
    causeAfter (exec (.pmono (vr 0) (xr 0)) (bA.setX (xr 0) 64)) = some 11 := by
  decide

/-- P7, P8. -/
theorem test_pdeg :
    xAfter (exec (.pdeg (xr 0) (vr 0)) (bA.setV (vr 0) (bv [1, 1, 0, 1, 0, 0]))) (xr 0) = some 3 ∧
    xAfter (exec (.pdeg (xr 0) (vr 0)) (bA.setV (vr 0) (bv [0, 0]))) (xr 0) = some (-1) := by
  decide

/-- P9. -/
theorem test_pwt :
    xAfter (exec (.pwt (xr 0) (vr 0)) (bA.setV (vr 0) (bv [1, 1, 0, 1]))) (xr 0) = some 3 := by
  decide

/-- P10, P12. -/
theorem test_padd :
    vAfter (exec (.padd (vr 2) (vr 0) (vr 1)) ((bA.setV (vr 0) (bv [1, 0, 1, 1])).setV (vr 1) (bv [0, 1, 0, 1]))) (vr 2) = some (bv [1, 1, 1]) ∧
    vAfter (exec (.padd (vr 2) (vr 0) (vr 1)) ((bA.setV (vr 0) (bv [1])).setV (vr 1) (bv [0, 0, 1]))) (vr 2) = some (bv [1, 0, 1]) := by
  decide

/-- P13, P14. -/
theorem test_pmul :
    vAfter (exec (.pmul (vr 2) (vr 0) (vr 1)) ((bA.setV (vr 0) (bv [1, 0, 1, 1])).setV (vr 1) (bv [1, 1]))) (vr 2) = some (bv [1, 1, 1, 0, 1]) ∧
    vAfter (exec (.pmul (vr 2) (vr 0) (vr 1)) ((bA.setV (vr 0) (bv [1, 1, 0, 1])).setV (vr 1) (bv [1, 1, 1, 0, 1]))) (vr 2)
      = some (bv [1, 0, 0, 0, 0, 0, 0, 1]) := by
  decide

/-- P18, both destinations; P21. -/
theorem test_pdivmod :
    vAfter (exec (.pdivmod (vr 2) (vr 0) (vr 1) (vr 3)) ((bA.setV (vr 0) (bv [1, 0, 0, 0, 1, 0, 1])).setV (vr 1) (bv [1, 1, 0, 1]))) (vr 2) = some (bv [1, 0, 0, 1]) ∧
    vAfter (exec (.pdivmod (vr 2) (vr 0) (vr 1) (vr 3)) ((bA.setV (vr 0) (bv [1, 0, 0, 0, 1, 0, 1])).setV (vr 1) (bv [1, 1, 0, 1]))) (vr 3) = some (bv [0, 1]) ∧
    vAfter (exec (.pdivmod (vr 2) (vr 0) (vr 1) (vr 3)) ((bA.setV (vr 0) (bv [0, 0, 0, 0, 0, 1])).setV (vr 1) (bv [1, 1, 0, 1]))) (vr 3) = some (bv [1, 1, 1]) := by
  decide

/-- P25, P26. -/
theorem test_pdivmod_faults :
    causeAfter (exec (.pdivmod (vr 2) (vr 0) (vr 1) (vr 3)) ((bA.setV (vr 0) (bv [1, 1])).setV (vr 1) (bv [0, 0]))) = some 10 ∧
    causeAfter (step (bA.withFetchWord 32 0x36201200)) = some 12 := by
  decide

/-- P27. -/
theorem test_pquo :
    vAfter (exec (.pquo (vr 2) (vr 0) (vr 1)) ((bA.setV (vr 0) (bv [1, 1, 0, 0, 1, 0, 1])).setV (vr 1) (bv [1, 1, 0, 1]))) (vr 2) = some (bv [1, 0, 0, 1]) := by
  decide

/-- The remainder of P18. -/
theorem test_prem :
    vAfter (exec (.prem (vr 2) (vr 0) (vr 1)) ((bA.setV (vr 0) (bv [1, 0, 0, 0, 1, 0, 1])).setV (vr 1) (bv [1, 1, 0, 1]))) (vr 2) = some (bv [0, 1]) := by
  decide

/-- P29, P31, P30. -/
theorem test_pword :
    vAfter (exec (.pword (vr 1) (vr 0) (xr 0)) ((bA.setV (vr 0) (bv [0, 1])).setX (xr 0) 7)) (vr 1) = some e7 ∧
    vAfter (exec (.pword (vr 1) (vr 0) (xr 0)) ((bA.setV (vr 0) (bv [1, 0, 0, 0])).setX (xr 0) 2)) (vr 1) = some (bv [1, 0]) ∧
    causeAfter (exec (.pword (vr 1) (vr 0) (xr 0)) ((bA.setV (vr 0) (bv [1, 1, 0, 1])).setX (xr 0) 3)) = some 5 := by
  decide

/-- C1, B1. -/
theorem test_enc :
    vAfter (exec (.enc (vr 1) (vr 0)) (bA.setV (vr 0) (bv [1, 0, 0, 1]))) (vr 1) = some c7 ∧
    vAfter (exec (.enc (vr 1) (vr 0)) (bB.setV (vr 0) (bv [1, 0, 1, 1, 0, 0, 1, 0, 1]))) (vr 1)
      = some (bv [1, 0, 1, 0, 1, 0, 0, 0, 1, 0, 1, 0, 0, 1, 1]) := by
  decide

/-- C3. -/
theorem test_enc_fault :
    causeAfter (exec (.enc (vr 1) (vr 0)) (bA.setV (vr 0) (bv [1, 0, 0, 1, 0]))) = some 8 := by
  decide

/-- C4, C5, C9. -/
theorem test_dec :
    vAfter (exec (.dec (vr 1) (vr 0)) (bA.setV (vr 0) (bv [1, 1, 0, 0, 1, 0, 1]))) (vr 1) = some (bv [1, 0, 0, 1]) ∧
    vAfter (exec (.dec (vr 1) (vr 0)) (bA.setV (vr 0) (bv [0, 0, 0, 0, 0, 0, 1]))) (vr 1) = some (bv [1, 1, 0, 1]) ∧
    causeAfter (exec (.dec (vr 1) (vr 0)) (bA.setV (vr 0) (bv [1, 0, 0, 1]))) = some 8 := by
  decide

/-- C10, B5. -/
theorem test_synd :
    vAfter (exec (.synd (vr 1) (vr 0)) (bA.setV (vr 0) (bv [1, 0, 0, 0, 1, 0, 1]))) (vr 1) = some (bv [0, 1]) ∧
    vAfter (exec (.synd (vr 1) (vr 0)) (bB.setV (vr 0) (bv [0, 0, 1, 0, 1, 0, 0, 0, 1, 0, 1, 0, 0, 0, 0]))) (vr 1)
      = some (bv [1, 1, 0, 0, 0, 1]) := by
  decide

/-- C13, C16. -/
theorem test_synr :
    vAfter (exec (.synr (vr 1) (vr 0) (xr 0)) ((bA.setV (vr 0) (bv [0, 1, 1])).setX (xr 0) 3)) (vr 1) = some (bv [1]) ∧
    causeAfter (exec (.synr (vr 1) (vr 0) (xr 0)) ((bA.setV (vr 0) (bv [0, 1, 1])).setX (xr 0) (-1))) = some 6 := by
  decide

/-- C17, C18. -/
theorem test_btq :
    xAfter (exec (.btq (xr 0) (vr 0)) (bA.setV (vr 0) (bv [0, 1]))) (xr 0) = some 1 ∧
    xAfter (exec (.btq (xr 0) (vr 0)) (bA.setV (vr 0) (bv [1, 1]))) (xr 0) = some 0 := by
  decide

/-- C20, C21, B9. -/
theorem test_btq_edges :
    xAfter (exec (.btq (xr 0) (vr 0)) (bA.setV (vr 0) (bv [0, 0, 0, 1, 0, 0]))) (xr 0) = some 1 ∧
    causeAfter (exec (.btq (xr 0) (vr 0)) (bA.setV (vr 0) (bv [0, 0, 0, 0, 1]))) = some 5 ∧
    xAfter (exec (.btq (xr 0) (vr 0)) (bB.setV (vr 0) (bv [1, 0, 0, 0, 0, 0, 0, 0, 1]))) (xr 0) = some 1 := by
  decide

/-- L6; S2 (L4). -/
theorem test_ferr :
    vAfter (exec (.ferr (vr 3) (vr 3)) (bA.setV (vr 3) (bv [1, 1, 0, 1, 1, 0, 1]))) (vr 3)
      = some (bv [0, 0, 0, 1, 0, 0, 0]) ∧
    vAfter (exec (.ferr (vr 1) (vr 0)) (bA.setV (vr 0) (bv [1, 0, 1, 0, 1, 0, 1]))) (vr 1) = some (bv [0, 0, 0, 0, 1, 0, 0]) ∧
    foundAfter (exec (.ferr (vr 1) (vr 0)) (bA.setV (vr 0) (bv [1, 0, 1, 0, 1, 0, 1]))) = some true := by
  decide

/-- L7: absent, the destination and the rest unchanged but `F`. -/
theorem test_ferr_absent :
    nextOf (exec (.ferr (vr 1) (vr 0)) (((bL7.setV (vr 0) (bv [0, 1, 1, 1, 0, 0, 1])).setV (vr 1) (bv [1, 1])).setFound true))
      = some (((bL7.setV (vr 0) (bv [0, 1, 1, 1, 0, 0, 1])).setV (vr 1) (bv [1, 1])).setFound false) := by
  decide

/-- L12, L3. -/
theorem test_fpkg :
    vAfter (exec (.fpkg (vr 1) (vr 0)) (bL12.setV (vr 0) (bv [1, 0, 0, 1, 0, 0, 1]))) (vr 1) = some e7 ∧
    vAfter (exec (.fpkg (vr 1) (vr 0)) (bA.setV (vr 0) (bv [1, 1, 0, 0, 1, 0, 1]))) (vr 1) = some (zeros 7) := by
  decide

/-- L8; Y9: a fault leaves `F`. -/
theorem test_fpkg_edges :
    causeAfter (exec (.fpkg (vr 1) (vr 0)) (bL7.setV (vr 0) (bv [0, 1, 1, 1, 0, 0, 1]))) = some 5 ∧
    foundAfter (exec (.ferr (vr 1) (vr 0)) ((bA.setV (vr 0) (bv [1, 0, 0, 1])).setFound true)) = some true := by
  decide

end

/-! ### A step, the ports and the notation -/

/-- Y7 and program 4: a refused legal word and a refused illegal word change nothing but the response. -/
theorem test_step_refused :
    nextOf (step ((bA.raise .lengthMismatch 0x13201000).offer 0x12000000))
      = some { bA.raise .lengthMismatch 0x13201000 with rsp := some ⟨true, 4⟩ } ∧
    nextOf (step ((bA.raise .lengthMismatch 0x13201000).offer 0xFFFFFFFF))
      = some { bA.raise .lengthMismatch 0x13201000 with rsp := some ⟨true, 4⟩ } := by
  decide

/-- Y5: the faulting word is in `FCMD`. -/
theorem test_step_illegal : (nextOf (step (bA.offer 0x0200000A))).map (fun t => t.fcmd) = some 0x0200000A := by
  decide

/-- Y8, and R261 for a command in progress. -/
theorem test_step_reset :
    nextOf (step { ((bA.setV (vr 1) c7).raise .capacity 0x10000000) with host := [.reset] }) = some bA ∧
    nextOf (step { (bA.setV (vr 1) c7) with host := [.commandThenReset 0x12010000] }) = some bA := by
  decide

/-- The readout port (R34): `V1`, `X2`, `CAUSE`, `g` and an unused selection. -/
theorem test_readout :
    (bSmall.setV (vr 1) (bv [1, 1, 0, 1])).readout 1 = ⟨4, 0b0001011#7, 0⟩ ∧
    (bA.setX (xr 2) (-1)).readout 18 = ⟨0, 0, 0xFFFFFFFF⟩ ∧ (bA.raise .capacity 0).readout 40 = ⟨0, 0, 11⟩ ∧
    bSmall.readout 42 = ⟨4, 0b0001011#7, 0⟩ ∧ bA.readout 63 = ⟨0, 0, 0⟩ := by
  decide

/-- S4: the renderings. -/
theorem test_render :
    renderVector (bv [1, 1, 0, 0, 1, 0, 1]) = "1100.101" ∧ renderVector (bv [1, 0, 0, 1, 1, 0, 0, 1]) = "1001.1001" ∧
    renderPoly (bv [1, 1, 0, 1]) = "1 + x + x^3" ∧ renderPoly [] = "0" := by
  decide

/-- Section 8: assembler text, PDIVMOD with its remainder second. -/
theorem test_asmText :
    asmText (.pdivmod (vr 4) (vr 3) (vr 0) (vr 5)) = "PDIVMOD v4, v5, v3, v0" ∧
    asmText (.vlit (vr 2) 7 2) = "VLIT v2, [0,1,0,0,0,0,0]" ∧ asmText (.xli (xr 1) 0xFFFFF) = "XLI x1, -1" := by
  decide

/-! ### Witnesses: each statement with hypotheses has a state and operands that meet them -/

theorem witness_DecodeOfEncodeIsTheCommand :
    (Instr.csrr (xr 15) 9).wellFormed = true ∧
    (Instr.vlit (vr 0) 15 0x7FFF).wellFormed = true ∧
    (Instr.pdivmod (vr 0) (vr 0) (vr 0) (vr 1)).wellFormed = true ∧
    (Instr.xli (xr 0) 0x80000).wellFormed = true := by
  decide

theorem witness_EncodeOfDecodeIsTheWord :
    decode 0x02400009 = .ok (.csrr (xr 4) 9) ∧
    decode 0x36F00E00 = .ok (.pdivmod (vr 15) (vr 0) (vr 0) (vr 14)) := by
  decide

theorem witness_IllegalWordsRaiseIllegalCommand :
    decode 0x112F6001 = .ok (.vlit (vr 2) 15 0x6001) ∧
    (⟨"CSRR", 0x02000000, 0xFF000000⟩ : OpcodeRow) ∈ opcodeMap ∧
    (⟨"CSRR", 0x02000000, 0xFF000000⟩ : OpcodeRow).accepts 0x02F00009 = true ∧
    (bA.offer 0x0200000A).Ready ∧
    (bA.offer 0x0200000A).host = [.command 0x0200000A] ∧
    (∀ r ∈ opcodeMap, r.accepts 0x0200000A = false) := by
  decide

theorem witness_StepRunsTheDecodedCommand :
    (bA.offer 0x45430000).Ready ∧
    (bA.offer 0x45430000).host = [.command 0x45430000] ∧
    decode 0x45430000 = .ok (.ferr (vr 4) (vr 3)) ∧
    decodeTableWord 32 0x46FF0000 = some (.fpkg (vr 15) (vr 15)) := by
  decide

theorem witness_FaultedBlockRefusesEveryWord :
    legal ((bA.raise .lengthMismatch 0x13201000).offer 0xFFFFFFFF).code = true ∧
    ((bA.raise .lengthMismatch 0x13201000).offer 0xFFFFFFFF).live = true ∧
    ((bA.raise .lengthMismatch 0x13201000).offer 0xFFFFFFFF).fault = true ∧
    ((bA.raise .lengthMismatch 0x13201000).offer 0xFFFFFFFF).host = [.command 0xFFFFFFFF] := by
  decide

theorem witness_FaultLastsUntilReset :
    legal ({ bA.raise .capacity 0 with host := [.command 0, .command 0x45430000] } : State).code = true ∧
    ({ bA.raise .capacity 0 with host := [.command 0, .command 0x45430000] } : State).live = true ∧
    ({ bA.raise .capacity 0 with host := [.command 0, .command 0x45430000] } : State).fault = true ∧
    ({ bA.raise .capacity 0 with host := [.command 0, .command 0x45430000] } : State).host = [0, 0x45430000].map .command := by
  decide

theorem witness_EveryCommandIsAnswered :
    (bA.offer 0).Inv ∧
    (bA.offer 0).live = true ∧
    (bA.offer 0).host = [.command 0] := by
  decide

theorem witness_ResetGivesTheResetState :
    legal ({ bA with live := false, host := [.reset] } : State).code = true ∧
    ({ bA with live := false, host := [.reset] } : State).host = [.reset] := by
  decide

theorem witness_ResetAbandonsTheCommand :
    legal ({ bA with host := [.commandThenReset 0xFFFFFFFF] } : State).code = true ∧
    ({ bA with host := [.commandThenReset 0xFFFFFFFF] } : State).live = true ∧
    ({ bA with host := [.commandThenReset 0xFFFFFFFF] } : State).host = [.commandThenReset 0xFFFFFFFF] := by
  decide

/-- The parameter sets of the second and third clause: `r = n` is the first illegal value of `r` (R171). -/
theorem witness_StepsWithoutACommand :
    legal ({ bA with live := false, host := [.command 0] } : State).code = true ∧
    ({ bA with live := false, host := [.command 0] } : State).live = false ∧
    legal (blk ⟨3, bv [1, 1, 0, 1], 0, 64⟩).code = false ∧ legal ⟨4, bv [1, 1, 0, 1], 1, 4⟩ = true ∧
    legal ⟨4, bv [1, 1, 0, 1], 2, 4⟩ = false ∧ legal ⟨4, bv [1, 1, 0, 1], 1, 3⟩ = false ∧
    legal ⟨4, bv [1, 1, 0, 1], 1, 2147483647⟩ = true ∧ legal ⟨4, bv [1, 1, 0, 1], 1, 2147483648⟩ = false ∧
    legal ⟨4, bv [1, 1, 0, 0], 1, 4⟩ = false ∧ legal ⟨4, bv [1], 1, 4⟩ = false ∧ bA.host = [] := by
  decide

theorem witness_ReadoutShowsTheSelection :
    (15 : BitVec 6).toNat = (vr 15).num.val ∧
    (31 : BitVec 6).toNat = 16 + (xr 15).num.val ∧
    (41 : BitVec 6).toNat = 32 + 9 ∧
    (42 : BitVec 6).toNat = 42 ∧
    42 < (43 : BitVec 6).toNat := by
  decide

theorem witness_ResetMeetsTheInvariant :
    legal Config.codeA = true ∧
    legal Config.codeB = true ∧
    legal bL7.code = true := by
  decide

/-- The invariant with the longest vector a register holds, and a step from there (R20). -/
theorem witness_StepKeepsTheInvariant :
    ((bSmall.setV (vr 1) c7).offer 0x13211000).Inv ∧ ({ bA with live := false, host := [.reset] } : State).Inv ∧
    vAfter (step ((bSmall.setV (vr 1) c7).offer 0x13211000)) (vr 2) = some (zeros 7) := by
  decide

/-- A completed command, a fault entry and a locator's absent result are next states of exec. -/
theorem witness_CommandsChangeOnlyWhatTheyName :
    nextOf (exec (.vcat (vr 2) (vr 0) (vr 1)) bA) = some bA ∧
    nextOf (exec (.enc (vr 1) (vr 0)) bA) = some (bA.raise .invalidLength 0x40100000) ∧
    nextOf (exec (.ferr (vr 1) (vr 0)) (bL7.setV (vr 0) (bv [0, 1, 1, 1, 0, 0, 1])))
      = some (bL7.setV (vr 0) (bv [0, 1, 1, 1, 0, 0, 1])) := by
  decide

theorem witness_ConstantsNeverChange : (nextOf (step bA)).map (fun t => t.code) = some Config.codeA := by
  decide

/-- Two states that agree on VSET's sources and nothing else. -/
theorem witness_OnlyNamedSourcesMatter :
    (∀ r ∈ (namedRegs (.vset (vr 0) (xr 1) (xr 2))).vSources, (bA.setV (vr 3) c7).getV r = bA.getV r) ∧
    (∀ r ∈ (namedRegs (.vset (vr 0) (xr 1) (xr 2))).xSources, (bA.setX (xr 3) 5).getXWord r = bA.getXWord r) ∧
    namedRegs (.vset (vr 0) (xr 1) (xr 2)) = ⟨[vr 0], [], [vr 0], [xr 1, xr 2]⟩ ∧
    nextOf (exec (.vset (vr 0) (xr 1) (xr 2)) bA) = some (bA.raise .outOfRange 0x16012000) := by
  decide

theorem witness_OnlySevenCommandsRaiseCapacity :
    (bSmall.setV (vr 0) c7).Bounded ∧ (bSmall.setV (vr 0) c7).fault = false ∧
    nextOf (exec (.pmul (vr 2) (vr 0) (vr 0)) (bSmall.setV (vr 0) c7))
      = some ((bSmall.setV (vr 0) c7).raise .capacity 0x35200000) ∧
    nextOf (exec (.vlit (vr 0) 8 0) bSmall) = some (bSmall.raise .capacity 0x11080000) := by
  decide

theorem witness_TypeFaultsNeverOccur :
    nextOf (exec (.vset (vr 0) (xr 1) (xr 2)) (bA.setX (xr 2) 2))
      = some ((bA.setX (xr 2) 2).raise .invalidElement 0x16012000) ∧
    (bA.setX (xr 2) 2).Inv ∧ (bA.setX (xr 2) 2).Ready ∧ (bA.setX (xr 2) 2).cause ≠ some .invalidElement := by
  decide

theorem witness_PolynomialResultsAreTrimmed :
    (Instr.pdivmod (vr 2) (vr 0) (vr 1) (vr 3)).mnemonic
      ∈ ["PTRIM", "PMONO", "PADD", "PMUL", "PDIVMOD", "PQUO", "PREM"] ∧
    (nextOf (exec (.pdivmod (vr 2) (vr 0) (vr 1) (vr 3)) ((bA.setV (vr 0) (bv [1, 0, 0, 0, 1, 0, 1])).setV (vr 1) (bv [1, 1, 0, 1])))).map (fun t => t.fault)
      = some false := by
  decide

theorem witness_CsrrReadsTheControlRegister :
    bA.Bounded ∧
    ((9 : BitVec 20).toNat, (0 : Int)) ∈ [(9, bA.fcmd.toInt)] ∧
    ((0 : BitVec 20).toNat, (7 : Int)) ∈ [(0, (bA.code.n : Int))] ∧
    bA.Inv ∧
    bA.Ready ∧
    (9 : BitVec 20).toNat ∈ [7, 8, 9] ∧
    opcodeOf 0x0200000A = 0x02 ∧
    9 < (imm20Field 0x0200000A).toNat := by
  decide

theorem witness_GldCopiesTheGenerator :
    bA.Bounded ∧
    bB.Bounded := by
  decide

theorem witness_VzeroWritesZeros :
    0 ≤ bA.getX (xr 0) ∧
    bA.getX (xr 0) ≤ bA.code.lmax ∧
    (bA.setX (xr 0) 64).getX (xr 0) ≤ bA.code.lmax ∧
    (bA.setX (xr 0) (-1)).getX (xr 0) < 0 ∧
    (bA.code.lmax : Int) < (bA.setX (xr 0) 65).getX (xr 0) := by
  decide

theorem witness_VlitWritesTheLiteral :
    (∀ i, (15 : BitVec 4).toNat ≤ i → (0x7FFF : BitVec 16).getLsbD i = false) ∧ (15 : BitVec 4).toNat ≤ bA.code.lmax ∧
    (∀ i, (8 : BitVec 4).toNat ≤ i → (0xFF : BitVec 16).getLsbD i = false) ∧ bSmall.code.lmax < (8 : BitVec 4).toNat ∧
    opcodeOf 0x11020004 = 0x11 ∧ (lenField 0x11020004).toNat ≤ 2 ∧ (bitsField 0x11020004).getLsbD 2 = true := by
  refine ⟨fun i hi => ?_, by decide, fun i hi => ?_, by decide⟩
  · rcases Nat.lt_or_ge i 16 with h | h
    · obtain rfl : i = 15 := by simp at hi; omega
      decide
    · exact BitVec.getLsbD_of_ge _ _ h
  · rcases Nat.lt_or_ge i 16 with h | h
    · have : ∀ j : Fin 16, 8 ≤ j.val → (0xFF : BitVec 16).getLsbD j.val = false := by decide
      exact this ⟨i, h⟩ hi
    · exact BitVec.getLsbD_of_ge _ _ h

theorem witness_MeasuresOfAVector :
    (bSmall.setV (vr 0) c7).Bounded ∧
    ((bSmall.setV (vr 0) c7).getV (vr 0)).length = bSmall.code.lmax := by
  decide

theorem witness_VaddAddsElementwise :
    (bA.setV (vr 0) c7).Bounded ∧
    ((bA.setV (vr 0) c7).getV (vr 0)).length = ((bA.setV (vr 0) c7).getV (vr 0)).length ∧
    ((bA.setV (vr 0) c7).getV (vr 0)).length ≠ ((bA.setV (vr 0) c7).getV (vr 1)).length := by
  decide

theorem witness_VgetReadsOneElement :
    ((bA.setV (vr 0) c7).setX (xr 1) 6).getX (xr 1) = (6 : Nat) ∧
    (((bA.setV (vr 0) c7).setX (xr 1) 6).getV (vr 0))[6]? = some true ∧
    ((bA.setV (vr 0) c7).setX (xr 1) (-1)).getX (xr 1) < 0 ∧
    ((((bA.setV (vr 0) c7).setX (xr 1) 7).getV (vr 0)).length : Int) ≤ ((bA.setV (vr 0) c7).setX (xr 1) 7).getX (xr 1) := by
  decide

theorem witness_VsliceCopiesTheRange :
    (((bA.setV (vr 1) c7).setX (xr 0) 0).setX (xr 1) 7).Bounded ∧
    0 ≤ (((bA.setV (vr 1) c7).setX (xr 0) 0).setX (xr 1) 7).getX (xr 0) ∧
    (((bA.setV (vr 1) c7).setX (xr 0) 7).setX (xr 1) 7).getX (xr 0) ≤ (((bA.setV (vr 1) c7).setX (xr 0) 7).setX (xr 1) 7).getX (xr 1) ∧
    (((bA.setV (vr 1) c7).setX (xr 0) 0).setX (xr 1) 7).getX (xr 1) ≤ ((((bA.setV (vr 1) c7).setX (xr 0) 0).setX (xr 1) 7).getV (vr 1)).length ∧
    (((bA.setV (vr 1) c7).setX (xr 0) (-1)).setX (xr 1) 2).getX (xr 0) < 0 ∧
    (((((bA.setV (vr 1) c7).setX (xr 0) 0).setX (xr 1) 8).getV (vr 1)).length : Int) < (((bA.setV (vr 1) c7).setX (xr 0) 0).setX (xr 1) 8).getX (xr 1) ∧
    (((bA.setV (vr 1) c7).setX (xr 0) 3).setX (xr 1) 2).getX (xr 1) < (((bA.setV (vr 1) c7).setX (xr 0) 3).setX (xr 1) 2).getX (xr 0) := by
  decide

theorem witness_VsetSetsOneElement :
    (((bA.setV (vr 0) c7).setX (xr 1) 6).setX (xr 2) 1).Bounded ∧
    (((bA.setV (vr 0) c7).setX (xr 1) 6).setX (xr 2) 1).getX (xr 1) = (6 : Nat) ∧
    6 < ((((bA.setV (vr 0) c7).setX (xr 1) 6).setX (xr 2) 1).getV (vr 0)).length ∧
    ((((bA.setV (vr 0) c7).setX (xr 1) 6).setX (xr 2) 1).getX (xr 2) = if true then 1 else 0) ∧
    (((bA.setV (vr 0) c7).setX (xr 1) 6).setX (xr 2) 2).getX (xr 2) ≠ 0 ∧
    (((bA.setV (vr 0) c7).setX (xr 1) 6).setX (xr 2) 2).getX (xr 2) ≠ 1 ∧
    (((((bA.setV (vr 0) c7).setX (xr 1) 7).setX (xr 2) 0).getV (vr 0)).length : Int) ≤ (((bA.setV (vr 0) c7).setX (xr 1) 7).setX (xr 2) 0).getX (xr 1) ∧
    (((bA.setV (vr 0) c7).setX (xr 1) (-1)).setX (xr 2) 0).getX (xr 1) < 0 := by
  decide

theorem witness_VcatConcatenates :
    (((bSmall.setV (vr 0) (bv [1, 0, 1])).setV (vr 1) (bv [0, 1, 1, 0])).getV (vr 0)).length + (((bSmall.setV (vr 0) (bv [1, 0, 1])).setV (vr 1) (bv [0, 1, 1, 0])).getV (vr 1)).length ≤ bSmall.code.lmax ∧
    bSmall.code.lmax < (((bSmall.setV (vr 0) (bv [1, 0, 1])).setV (vr 1) (bv [0, 1, 1, 0, 1])).getV (vr 0)).length + (((bSmall.setV (vr 0) (bv [1, 0, 1])).setV (vr 1) (bv [0, 1, 1, 0, 1])).getV (vr 1)).length := by
  decide

theorem witness_VrorRotatesByAnyAmount :
    (bSmall.setV (vr 0) c7).Bounded ∧
    ((bSmall.setV (vr 0) c7).setX (xr 0) 6).getX (xr 0) = (6 : Nat) ∧
    6 < (((bSmall.setV (vr 0) c7).setX (xr 0) 6).getV (vr 0)).length ∧
    ((bSmall.setV (vr 0) c7).setX (xr 0) (-6)).getX (xr 0) = -((6 : Nat) : Int) ∧
    ((((bSmall.setV (vr 0) c7).setX (xr 0) 7).getV (vr 0)).length : Int) ≤ ((bSmall.setV (vr 0) c7).setX (xr 0) 7).getX (xr 0) ∧
    ((bSmall.setV (vr 0) c7).setX (xr 0) (-7)).getX (xr 0) ≤ -((((bSmall.setV (vr 0) c7).setX (xr 0) (-7)).getV (vr 0)).length : Int) := by
  decide

theorem witness_RotationFollowsTheSlices :
    (0 : Int) < 6 ∧
    (6 : Int) < c7.length ∧
    -(c7.length : Int) < -6 ∧
    (c7.length : Int) ≤ 7 ∧
    (-7 : Int) ≤ -(c7.length : Int) := by
  decide

theorem witness_RotationsCancel :
    (0 : Nat) ≤ c7.length ∧
    7 ≤ c7.length := by
  decide

theorem witness_SeqWritesTheMember :
    ((bA.setX (xr 0) 3).setX (xr 1) 7).getX (xr 0) = (3 : Nat) ∧
    ((bA.setX (xr 0) 3).setX (xr 1) 7).getX (xr 1) = (7 : Nat) ∧
    7 < 2 ^ 3 ∧
    3 ≤ bA.code.lmax ∧
    ((bA.setX (xr 0) (-1)).setX (xr 1) 0).getX (xr 0) < 0 ∧
    ((bA.setX (xr 0) 0).setX (xr 1) (-1)).getX (xr 1) < 0 ∧
    2 ^ 3 ≤ 8 ∧
    ((bA.setX (xr 0) 3).setX (xr 1) 8).getX (xr 1) = (8 : Nat) ∧
    ((bA.setX (xr 0) 65).setX (xr 1) 2147483647).getX (xr 0) = (65 : Nat) ∧
    2147483647 < 2 ^ 65 ∧
    bA.code.lmax < 65 := by
  decide

theorem witness_SeqIsTheMemberOfGen :
    15 < 2 ^ 4 ∧
    (gen 4)[15]? = some (bv [1, 0, 0, 0]) := by
  decide

theorem witness_PtrimDropsTrailingZeros :
    (bSmall.setV (vr 0) (bv [0, 0, 0, 0, 0, 0, 0])).Bounded := by
  decide

theorem witness_PmonoWritesTheMonomial :
    (bSmall.setX (xr 0) 6).getX (xr 0) = (6 : Nat) ∧
    6 + 1 ≤ bSmall.code.lmax ∧
    (bSmall.setX (xr 0) (-1)).getX (xr 0) < 0 ∧
    0 ≤ (bSmall.setX (xr 0) 7).getX (xr 0) ∧
    (bSmall.code.lmax : Int) < (bSmall.setX (xr 0) 7).getX (xr 0) + 1 := by
  decide

theorem witness_PaddAddsCoefficients :
    ((bA.setV (vr 0) (bv [1])).setV (vr 1) (bv [0, 0, 1])).Bounded := by
  decide

/-- Lengths 7 and 8 on a block with `LMAX = 7`. -/
theorem witness_PmulConvolves :
    (pmul (bv [1, 0, 0, 1]) (bv [1, 0, 0, 1])).length ≤ bSmall.code.lmax ∧
    bSmall.code.lmax < (pmul (bv [1, 0, 0, 1]) (bv [1, 0, 0, 0, 1])).length := by
  decide

theorem witness_PdivmodDivides :
    ((bA.setV (vr 0) (bv [1, 1])).setV (vr 1) (bv [1, 1, 0, 1])).Bounded ∧
    vr 2 ≠ vr 3 ∧
    poly (((bA.setV (vr 0) (bv [1, 1])).setV (vr 1) (bv [1, 1, 0, 1])).getV (vr 1)) ≠ [] ∧
    deg (poly (bv [1, 1])) < deg (poly (bv [1, 1, 0, 1])) ∧
    poly (((bA.setV (vr 0) (bv [1, 1])).setV (vr 1) (bv [0, 0])).getV (vr 1)) = [] := by
  decide

theorem witness_PquoAndPremProject :
    ((bA.setV (vr 0) (bv [1, 1])).setV (vr 1) (bv [0, 1])).Bounded ∧
    poly (((bA.setV (vr 0) (bv [1, 1])).setV (vr 1) (bv [0, 1])).getV (vr 1)) ≠ [] ∧
    poly (((bA.setV (vr 0) (bv [1, 1])).setV (vr 1) (bv [0, 0])).getV (vr 1)) = [] := by
  decide

theorem witness_PwordExpands :
    ((bSmall.setV (vr 0) (bv [1, 1, 0, 0])).setX (xr 0) 2).getX (xr 0) = (2 : Nat) ∧
    (poly (((bSmall.setV (vr 0) (bv [1, 1, 0, 0])).setX (xr 0) 2).getV (vr 0))).length ≤ 2 ∧
    7 ≤ bSmall.code.lmax ∧
    ((bSmall.setV (vr 0) (bv [1, 1, 0, 0])).setX (xr 0) 1).getX (xr 0) < (poly (((bSmall.setV (vr 0) (bv [1, 1, 0, 0])).setX (xr 0) 1).getV (vr 0))).length ∧
    ((poly (((bSmall.setV (vr 0) (bv [1, 1, 0, 0])).setX (xr 0) 8).getV (vr 0))).length : Int) ≤ ((bSmall.setV (vr 0) (bv [1, 1, 0, 0])).setX (xr 0) 8).getX (xr 0) ∧
    (bSmall.code.lmax : Int) < ((bSmall.setV (vr 0) (bv [1, 1, 0, 0])).setX (xr 0) 8).getX (xr 0) := by
  decide

/-- The ring law of section 3. -/
theorem witness_PolynomialRingLaws :
    trim (bv [1, 1, 1]) = bv [1, 1, 1] ∧
    trim (bv [0, 1, 1]) = bv [0, 1, 1] ∧
    trim (bv [1, 1, 0, 1]) = bv [1, 1, 0, 1] ∧
    bv [1, 1, 0, 1] ≠ [] ∧
    prem (pmul (bv [1, 1, 1]) (bv [0, 1, 1])) (bv [1, 1, 0, 1]) = bv [0, 0, 1] := by
  decide

/-- P22. -/
theorem witness_DivisionIsCorrectAndUnique :
    trim (bv [1, 0, 1, 1]) = bv [1, 0, 1, 1] ∧
    trim (bv [0, 1]) = bv [0, 1] ∧
    bv [0, 1] ≠ [] ∧
    pquo (bv [1, 0, 1, 1]) (bv [0, 1]) ≠ [] ∧
    padd (pmul (bv [0, 1, 1]) (bv [0, 1])) (bv [1]) = bv [1, 0, 1, 1] ∧
    deg (bv [1]) < deg (bv [0, 1]) := by
  decide

theorem witness_EncMultipliesByTheGenerator :
    (bA.setV (vr 0) (bv [1, 0, 0, 1])).Bounded ∧
    (((bA.setV (vr 0) (bv [1, 0, 0, 1])).getV (vr 0)).length : Int) = bA.code.n - deg bA.code.g ∧
    ((bA.getV (vr 0)).length : Int) ≠ bA.code.n - deg bA.code.g := by
  decide

theorem witness_DecDividesByTheGenerator :
    (bA.setV (vr 0) c7).Bounded ∧
    ((bA.setV (vr 0) c7).getV (vr 0)).length = bA.code.n ∧
    (bA.getV (vr 0)).length ≠ bA.code.n := by
  decide

theorem witness_DecodeOfEncodedMessage :
    (bB.setV (vr 0) (bv [1, 0, 1, 1, 0, 0, 1, 0, 1])).Bounded ∧
    (((bB.setV (vr 0) (bv [1, 0, 1, 1, 0, 0, 1, 0, 1])).getV (vr 0)).length : Int) = bB.code.n - deg bB.code.g := by
  decide

theorem witness_SyndTakesTheRemainder :
    (bA.setV (vr 0) c7).Bounded ∧
    ((bA.setV (vr 0) c7).getV (vr 0)).length = bA.code.n ∧
    (bA.getV (vr 0)).length ≠ bA.code.n := by
  decide

theorem witness_SynrShiftsTheSyndrome :
    (bA.setX (xr 0) 0).Bounded ∧
    (bA.setX (xr 0) 0).getX (xr 0) = (0 : Nat) ∧
    (bA.setX (xr 0) 2147483647).getX (xr 0) = (2147483647 : Nat) ∧
    (bA.setX (xr 0) (-1)).getX (xr 0) < 0 := by
  decide

theorem witness_ShiftedSyndromeStepForm :
    legal Config.codeA = true ∧
    trim (bv [0, 1, 1]) = bv [0, 1, 1] := by
  decide

/-- The three cases of the ROM query on instance A: C17, C18 and C21. -/
theorem witness_BtqAsksTheRom :
    bA.Bounded ∧ ((4 : Nat) : Int) = bA.code.n - deg bA.code.g ∧ (poly (bv [0, 0, 0, 1, 0])).length ≤ 4 ∧
    (∃ w ∈ gen bA.code.p, ∃ a ∈ List.range bA.code.n,
      toWord (poly (bv [0, 1])) 4 = rotR (w ++ List.replicate (4 - bA.code.p) false) (a : Nat)) ∧
    (∀ w ∈ gen bA.code.p, ∀ a : Nat, a < bA.code.n →
      toWord (poly (bv [1, 1])) 4 ≠ rotR (w ++ List.replicate (4 - bA.code.p) false) a) ∧
    4 < (poly (bv [0, 0, 0, 0, 1])).length := by
  decide

theorem witness_RomContentFacts :
    legal Config.codeB = true ∧
    legal bL7.code = true ∧
    bL7.code.p = 0 ∧
    legal ⟨4, bv [1, 1], 3, 64⟩ = true ∧
    (⟨4, bv [1, 1], 3, 64⟩ : CodeParams).p = codeK ⟨4, bv [1, 1], 3, 64⟩ := by
  decide

theorem witness_EncoderAndSyndromeAreLinear :
    legal Config.codeA = true ∧
    (bv [1, 0, 0, 1]).length = codeK Config.codeA ∧
    c7.length = Config.codeA.n := by
  decide

/-- The shifted syndromes of a word, as the locator statements name them. -/
def shifted (s : State) (w : BitVector) (i : Nat) : Poly := prem (pmul (mono i) (prem (poly w) s.code.g)) s.code.g

/-- Row 3 of section 6 (accepted at 4), L7 (absent), and a word of another length. -/
theorem witness_FerrLocatesByWeight :
    (∀ i, shifted bA (bv [1, 1, 0, 1, 1, 0, 1]) i
      = prem (pmul (mono i) (prem (poly ((bA.setV (vr 3) (bv [1, 1, 0, 1, 1, 0, 1])).getV (vr 3))) bA.code.g)) bA.code.g) ∧
    ((bA.setV (vr 3) (bv [1, 1, 0, 1, 1, 0, 1])).getV (vr 3)).length = bA.code.n ∧
    (bA.setV (vr 3) (bv [1, 1, 0, 1, 1, 0, 1])).Bounded ∧ (4 : Nat) < bA.code.n ∧
    ((wt (shifted bA (bv [1, 1, 0, 1, 1, 0, 1]) 4) : Nat) : Int) ≤ (bA.code.n - deg bA.code.g - 1) / 2 ∧
    (∀ j, j < 4 → (bA.code.n - deg bA.code.g - 1) / 2 < ((wt (shifted bA (bv [1, 1, 0, 1, 1, 0, 1]) j) : Nat) : Int)) ∧
    (∀ i, i < bL7.code.n →
      (bL7.code.n - deg bL7.code.g - 1) / 2 < ((wt (shifted bL7 (bv [0, 1, 1, 1, 0, 0, 1]) i) : Nat) : Int)) ∧
    (bA.getV (vr 3)).length ≠ bA.code.n :=
  ⟨fun _ => by rw [State.getV_setV_same]; rfl, by decide⟩

/-- Row 3 of section 6 (accepted at 4), L8 (too long at 1), and instance A with `p = 0`, where nothing is accepted. -/
theorem witness_FpkgLocatesByTable :
    (∀ i, shifted bA (bv [1, 1, 0, 1, 1, 0, 1]) i
      = prem (pmul (mono i) (prem (poly ((bA.setV (vr 3) (bv [1, 1, 0, 1, 1, 0, 1])).getV (vr 3))) bA.code.g)) bA.code.g) ∧
    ((bA.setV (vr 3) (bv [1, 1, 0, 1, 1, 0, 1])).getV (vr 3)).length = bA.code.n ∧ (bA.getV (vr 3)).length ≠ bA.code.n ∧
    (bA.setV (vr 3) (bv [1, 1, 0, 1, 1, 0, 1])).Bounded ∧ ((4 : Nat) : Int) = bA.code.n - deg bA.code.g ∧
    (shifted bA (bv [1, 1, 0, 1, 1, 0, 1]) 4).length ≤ 4 ∧
    romMember bA.code (toWord (shifted bA (bv [1, 1, 0, 1, 1, 0, 1]) 4) 4) = true ∧
    (∀ j, j < 4 → (shifted bA (bv [1, 1, 0, 1, 1, 0, 1]) j).length ≤ 4 ∧
      romMember bA.code (toWord (shifted bA (bv [1, 1, 0, 1, 1, 0, 1]) j) 4) = false) ∧
    3 < (shifted bL7 (bv [0, 1, 1, 1, 0, 0, 1]) 1).length ∧
    (∀ j, j < 1 → (shifted bL7 (bv [0, 1, 1, 1, 0, 0, 1]) j).length ≤ 3 ∧
      romMember bL7.code (toWord (shifted bL7 (bv [0, 1, 1, 1, 0, 0, 1]) j) 3) = false) ∧
    (∀ i, i < bP0.code.n → (shifted bP0 (bv [1, 1, 0, 1, 1, 0, 1]) i).length ≤ 4 ∧
      romMember bP0.code (toWord (shifted bP0 (bv [1, 1, 0, 1, 1, 0, 1]) i) 4) = false) :=
  ⟨fun _ => by rw [State.getV_setV_same]; rfl, by decide⟩

/-- L2, L3. -/
theorem witness_CodewordIsFoundWithZeroPattern :
    (bA.setV (vr 3) c7).Bounded ∧
    ((bA.setV (vr 3) c7).getV (vr 3)).length = bA.code.n ∧
    syndrome bA.code c7 = [] := by
  decide

/-- P19 says that `g` divides `x^7 + 1`. -/
theorem witness_LocatedPatternYieldsACodeword :
    legal Config.codeA = true ∧
    prem (padd (mono 7) [true]) Config.codeA.g = [] ∧
    (bv [1, 1, 0, 1, 1, 0, 1]).length = 7 ∧
    (match locate Config.codeA (bv [1, 1, 0, 1, 1, 0, 1]) (weightTest Config.codeA) with
      | .ok (some e) => e == bv [0, 0, 0, 1, 0, 0, 0]
      | _ => false) = true := by
  decide

end Sys2Proof.Machine.Tests
end

/-! The statements about the state and its steps (`10_state.md`, `30_encoding.md` R86). First what a step can do, said
once; then the rules of the whole machine, each a short use of it and of `effect_of_exec`. -/

namespace Sys2Proof.Machine

/-! ### What a step does, by the host's next move -/

section

variable {s t : State} {w : Word} {later : List HostMove} {i : Instr}

theorem step_idle (hl : legal s.code = true) (hh : s.host = []) : step s = .next { s with rsp := none } := by
  simp [step, fetch, hl, hh]

theorem step_reset (hl : legal s.code = true) (hh : s.host = .reset :: later) :
    step s = .next (State.resetOf s.code later) := by
  simp [step, fetch, hl, hh, State.resetNow]

theorem step_commandThenReset (hl : legal s.code = true) (hlive : s.live = true)
    (hh : s.host = .commandThenReset w :: later) : step s = .next (State.resetOf s.code later) := by
  simp [step, fetch, hl, hh, State.cmdReady, hlive, State.resetNow]

/-- Step 1 of R86: a faulted block refuses the word and answers (R237). -/
theorem step_refuses (hl : legal s.code = true) (hlive : s.live = true) (hf : s.fault = true)
    (hh : s.host = .command w :: later) : step s = .next { s with host := later }.respond := by
  simp [step, fetch, take, hl, hh, State.cmdReady, hlive, hf, answer_next]

/-- Step 2 of R86: a word that does not decode raises `IllegalCommand` (R85). -/
theorem step_illegal {e : Illegal} (hs : s.Ready) (hh : s.host = .command w :: later) (hd : decode w = .error e) :
    step s = .next ({ s with host := later }.raise .illegalCommand w).respond := by
  obtain ⟨hl, hlive, hf⟩ := hs
  simp [step, fetch, take, hl, hh, State.cmdReady, hlive, hf, hd, answer_next]

/-- Steps 3 to 7 of R86: a word that decodes is executed and answered. -/
theorem step_executes (hs : s.Ready) (hh : s.host = .command w :: later) (hd : decode w = .ok i) :
    step s = answer (exec i { s with host := later }) := by
  obtain ⟨hl, hlive, hf⟩ := hs
  simp [step, fetch, take, hl, hh, State.cmdReady, hlive, hf, hd]

/-- Everything a step that answers next can make of `s`: the block idles, is reset, refuses a word while it is faulted,
records an illegal word, or executes a command (R35, R36, R86). -/
inductive StepResult (s : State) : State → Prop where
  | idle (hh : s.host = []) : StepResult s { s with rsp := none }
  | reset (later : List HostMove)
      (hh : s.host = .reset :: later ∨ (s.live = true ∧ ∃ w, s.host = .commandThenReset w :: later)) :
      StepResult s (State.resetOf s.code later)
  | refused (w : Word) (later : List HostMove) (hh : s.host = .command w :: later) (hlive : s.live = true)
      (hf : s.fault = true) : StepResult s { s with host := later }.respond
  | illegal (w : Word) (later : List HostMove) (e : Illegal) (hh : s.host = .command w :: later) (hs : s.Ready)
      (hd : decode w = .error e) : StepResult s ({ s with host := later }.raise .illegalCommand w).respond
  | executed (w : Word) (later : List HostMove) (i : Instr) (u : State) (hh : s.host = .command w :: later)
      (hs : s.Ready) (hd : decode w = .ok i) (hu : exec i { s with host := later } = .next u) :
      StepResult s u.respond

/-- A parameter set that is not legal is refused (R171). -/
theorem legal_of_step (h : step s = .next t) : legal s.code = true := by
  by_contra hl
  simp [step, fetch, hl] at h

/-- A command offered before the first reset is refused (R262). -/
theorem live_of_step {m : HostMove} (h : step s = .next t) (hh : s.host = m :: later) (hm : m ≠ .reset) :
    s.live = true := by
  by_contra hlive
  cases m <;> simp_all [step, fetch, legal_of_step h, State.cmdReady]

theorem stepResult_of_step (h : step s = .next t) : StepResult s t := by
  have hl := legal_of_step h
  match hh : s.host with
  | [] =>
    rw [step_idle hl hh] at h
    cases h
    exact .idle hh
  | .reset :: later =>
    rw [step_reset hl hh] at h
    cases h
    exact .reset later (.inl hh)
  | .commandThenReset w :: later =>
    have hlive := live_of_step h hh (by simp)
    rw [step_commandThenReset hl hlive hh] at h
    cases h
    exact .reset later (.inr ⟨hlive, w, hh⟩)
  | .command w :: later =>
    have hlive := live_of_step h hh (by simp)
    by_cases hf : s.fault = true
    · rw [step_refuses hl hlive hf hh] at h
      cases h
      exact .refused w later hh hlive hf
    · have hs : s.Ready := ⟨hl, hlive, by simpa using hf⟩
      match hd : decode w with
      | .error e =>
        rw [step_illegal hs hh hd] at h
        cases h
        exact .illegal w later e hh hs hd
      | .ok i =>
        rw [step_executes hs hh hd, answer_eq_next] at h
        obtain ⟨u, hu, rfl⟩ := h
        exact .executed w later i u hh hs hd hu

end

/-! ### What an effect keeps -/

section

variable {i : Instr} {s t : State}

theorem Effect.code_eq (h : Effect i s t) : t.code = s.code := by cases h <;> rfl

theorem Effect.live_eq (h : Effect i s t) : t.live = s.live := by cases h <;> rfl

theorem Effect.host_eq (h : Effect i s t) : t.host = s.host := by cases h <;> rfl

theorem Effect.rsp_eq (h : Effect i s t) : t.rsp = s.rsp := by cases h <;> rfl

/-- Only the locators write the flag (R25). -/
theorem Effect.found_eq (h : Effect i s t) (h1 : i.mnemonic ≠ "FERR") (h2 : i.mnemonic ≠ "FPKG") :
    t.found = s.found := by
  cases h with
  | notFound hi => exact (hi.elim h1 h2).elim
  | found rd v hi => exact (hi.elim h1 h2).elim
  | fault | vector | vectors | scalar => rfl

/-- A vector register the command does not name as a destination is unchanged (R21). -/
theorem Effect.getV_eq (h : Effect i s t) {r : VReg} (hr : r ∉ (namedRegs i).vDests) : t.getV r = s.getV r := by
  cases h with
  | fault | scalar | notFound => simp
  | vector rd v hd =>
    rw [hd, List.mem_singleton] at hr
    exact s.getV_setV_of_ne v hr
  | vectors rd rc v u hd =>
    obtain ⟨h1, h2⟩ : r ≠ rd ∧ r ≠ rc := by simpa [hd] using hr
    rw [State.getV_setV_of_ne _ u h2, State.getV_setV_of_ne _ v h1]
  | found rd v hi hd =>
    rw [hd, List.mem_singleton] at hr
    exact s.getV_setV_of_ne v hr

/-- A scalar register the command does not name as a destination is unchanged (R22). -/
theorem Effect.getXWord_eq (h : Effect i s t) {r : XReg} (hr : r ∉ (namedRegs i).xDests) :
    t.getXWord r = s.getXWord r := by
  cases h with
  | scalar rd z hd =>
    rw [hd, List.mem_singleton] at hr
    rw [State.getXWord_setX, if_neg hr]
  | fault | vector | vectors | notFound | found => simp

/-- The fault record changes in a fault entry only, which changes nothing else (R65, R236). -/
theorem Effect.record_eq (h : Effect i s t) :
    (t.fault = s.fault ∧ t.cause = s.cause ∧ t.fcmd = s.fcmd) ∨
      ∃ k, k.canOccur = true ∧ t = s.raise k (encode i) := by
  cases h with
  | fault k hk => exact .inr ⟨k, hk, rfl⟩
  | vector | vectors | scalar | notFound | found => exact .inl ⟨rfl, rfl, rfl⟩

/-- No command lets a vector register grow beyond `LMAX` (R20, R87). -/
theorem Effect.length_le (h : Effect i s t) (hs : ∀ r, (s.getV r).length ≤ s.code.lmax) (r : VReg) :
    (t.getV r).length ≤ s.code.lmax := by
  cases h with
  | fault | scalar | notFound => simpa using hs r
  | vector rd v hd hx hl =>
    rw [State.getV_setV]
    split
    · exact hl
    · exact hs r
  | vectors rd rc v u hd hx hl hl' =>
    simp only [State.getV_setV]
    split
    · exact hl'
    · split
      · exact hl
      · exact hs r
  | found rd v hi hd hx hl =>
    rw [State.getV_setFound, State.getV_setV]
    split
    · exact hl
    · exact hs r

end

/-! ### The invariant -/

section

variable {i : Instr} {s t : State}

/-- A recorded fault of a kind that can occur is a consistent record (R26 to R28, R233). -/
theorem State.recordOk_raise {k : Kind} (hk : k.canOccur = true) (w : Word) : (s.raise k w).recordOk = true := by
  simp [State.recordOk, hk]

/-- While no fault is recorded `CAUSE` is 0 (R27). -/
theorem State.cause_of_recordOk (h : s.recordOk = true) (hf : s.fault = false) : s.cause = none := by
  match hc : s.cause with
  | none => rfl
  | some k => simp [State.recordOk, hc, hf] at h

theorem State.Inv.raise {k : Kind} (h : s.Inv) (hk : k.canOccur = true) (w : Word) : (s.raise k w).Inv :=
  ⟨h.1, fun hlive => ⟨(h.2 hlive).1, State.recordOk_raise hk w⟩⟩

theorem Effect.inv (he : Effect i s t) (h : s.Inv) : t.Inv := by
  obtain ⟨hl, hrun⟩ := h
  obtain ⟨hf, hc, hw⟩ | ⟨k, hk, rfl⟩ := he.record_eq
  · refine ⟨he.code_eq ▸ hl, fun hlive => ?_⟩
    obtain ⟨hb, hr⟩ := hrun (he.live_eq ▸ hlive)
    refine ⟨State.bounded_of (he.code_eq ▸ hl) fun r => ?_, ?_⟩
    · rw [he.code_eq]
      exact he.length_le hb.length_le r
    · simpa only [State.recordOk, hf, hc, hw] using hr
  · exact State.Inv.raise ⟨hl, hrun⟩ hk _

theorem State.inv_resetOf {c : CodeParams} (hc : legal c = true) (later : List HostMove) :
    (State.resetOf c later).Inv :=
  ⟨hc, fun _ => ⟨State.bounded_of hc (by simp), by simp [State.recordOk]⟩⟩

/-- Settles O15, by the cases of what a step can do; a command's effect keeps the invariant by `Effect.inv`, and the
invariant does not speak of the host's queue and the response. -/
theorem stepKeepsTheInvariant : Obligations.StepKeepsTheInvariant := by
  intro s t hs h
  cases stepResult_of_step h with
  | idle => exact hs
  | reset later hh => exact State.inv_resetOf hs.1 later
  | refused w later hh hlive hf => exact hs
  | illegal w later e hh hr hd => exact State.Inv.raise (s := { s with host := later }) hs rfl w
  | executed w later i u hh hr hd hu => exact (effect_of_exec hu).inv hs

/-- Settles O14. -/
theorem resetMeetsTheInvariant : Obligations.ResetMeetsTheInvariant :=
  ⟨State.inv_resetOf (by decide) [], fun _ h hc => State.inv_resetOf hc h⟩

end

/-! ### Constants and frame -/

theorem code_eq_of_step {s t : State} (h : step s = .next t) : t.code = s.code := by
  cases stepResult_of_step h with
  | executed w later i u hh hs hd hu => exact (effect_of_exec hu).code_eq
  | idle | reset | refused | illegal => rfl

/-- Settles O16. The content of the ROM is a function of the constants (R31). -/
theorem constantsNeverChange : Obligations.ConstantsNeverChange := by
  intro s t h
  have hc := code_eq_of_step h
  exact ⟨hc, fun w => by rw [hc]⟩

/-- Settles O17, from the effect of a command, one part of the frame at a time. -/
theorem commandsChangeOnlyWhatTheyName : Obligations.CommandsChangeOnlyWhatTheyName := by
  intro i s t h
  have he := effect_of_exec h
  refine ⟨fun r hr => he.getV_eq hr, fun r hr => he.getXWord_eq hr, he.found_eq, he.code_eq, he.live_eq, he.host_eq,
    he.rsp_eq, he.record_eq.imp_right ?_⟩
  rintro ⟨k, -, hk⟩
  exact ⟨k, hk⟩

/-! ### A command in two states that agree on its sources -/

/-- Two states that agree on all a command can read: the registers it names as sources, the constants, the flag and the
fault record (R21, R32). -/
structure AgreeOnSources (i : Instr) (s s' : State) : Prop where
  code : s'.code = s.code
  vSources : ∀ r ∈ (namedRegs i).vSources, s'.getV r = s.getV r
  xSources : ∀ r ∈ (namedRegs i).xSources, s'.getX r = s.getX r
  csr : s'.csr = s.csr

theorem AgreeOnSources.refl (i : Instr) (s : State) : AgreeOnSources i s s :=
  ⟨rfl, fun _ _ => rfl, fun _ _ => rfl, rfl⟩

/-- The control registers are functions of the constants, the flag and the fault record (R29). -/
theorem State.csr_congr {s s' : State} (hc : s.code = s'.code) (h1 : s.found = s'.found) (h2 : s.fault = s'.fault)
    (h3 : s.cause = s'.cause) (h4 : s.fcmd = s'.fcmd) : s'.csr = s.csr := by
  funext m
  unfold State.csr State.flagsWord State.statusWord State.causeWord
  rw [hc, h1, h2, h3, h4]

/-- One and the same write done to `s` and to `s'`. -/
inductive SameWrite (i : Instr) (s s' : State) : State → State → Prop where
  | fault (k : Kind) : SameWrite i s s' (s.raise k (encode i)) (s'.raise k (encode i))
  | vector (rd : VReg) (v : BitVector) : SameWrite i s s' (s.setV rd v) (s'.setV rd v)
  | vectors (rd rc : VReg) (v u : BitVector) : SameWrite i s s' ((s.setV rd v).setV rc u) ((s'.setV rd v).setV rc u)
  | scalar (rd : XReg) (z : Int) : SameWrite i s s' (s.setX rd z) (s'.setX rd z)
  | notFound : SameWrite i s s' (s.setFound false) (s'.setFound false)
  | found (rd : VReg) (v : BitVector) : SameWrite i s s' ((s.setV rd v).setFound true) ((s'.setV rd v).setFound true)

section

variable {i : Instr} {s s' t t' : State}

/-- A register holds the same after the same write, or it was not written in either state. -/
theorem SameWrite.getV (h : SameWrite i s s' t t') (r : VReg) :
    t.getV r = t'.getV r ∨ (t.getV r = s.getV r ∧ t'.getV r = s'.getV r) := by
  cases h with
  | fault | scalar | notFound => simp
  | vector rd v => by_cases hr : r = rd <;> simp [hr]
  | vectors rd rc v u => by_cases hr : r = rc <;> by_cases hr' : r = rd <;> simp [State.getV_setV, hr, hr']
  | found rd v => by_cases hr : r = rd <;> simp [hr]

theorem SameWrite.getXWord (h : SameWrite i s s' t t') (r : XReg) :
    t.getXWord r = t'.getXWord r ∨ (t.getXWord r = s.getXWord r ∧ t'.getXWord r = s'.getXWord r) := by
  cases h with
  | fault | vector | vectors | notFound | found => simp
  | scalar rd z => by_cases hr : r = rd <;> simp [State.getXWord_setX, hr]

/-- The flag and the fault record that agreed before the same write agree after it. -/
theorem SameWrite.record (h : SameWrite i s s' t t') (h1 : s.found = s'.found) (h2 : s.fault = s'.fault)
    (h3 : s.cause = s'.cause) (h4 : s.fcmd = s'.fcmd) :
    t.found = t'.found ∧ t.fault = t'.fault ∧ t.cause = t'.cause ∧ t.fcmd = t'.fcmd := by
  cases h with
  | fault => exact ⟨h1, rfl, rfl, rfl⟩
  | vector | vectors | scalar => exact ⟨h1, h2, h3, h4⟩
  | notFound | found => exact ⟨rfl, h2, h3, h4⟩

/-- Both results are next states, made by the same write. -/
def SameResult (i : Instr) (s s' : State) (r r' : Result) : Prop :=
  ∃ t t', r = .next t ∧ r' = .next t' ∧ SameWrite i s s' t t'

theorem sameResult_raiseBy (k : Kind) : SameResult i s s' (raiseBy k i s) (raiseBy k i s') :=
  ⟨_, _, rfl, rfl, .fault k⟩

theorem sameResult_writeScalar (rd : XReg) (z : Int) :
    SameResult i s s' (writeScalar rd z s) (writeScalar rd z s') :=
  ⟨_, _, rfl, rfl, .scalar rd z⟩

theorem sameResult_ite {p : Prop} [Decidable p] {a b a' b' : Result} (ha : SameResult i s s' a a')
    (hb : SameResult i s s' b b') : SameResult i s s' (if p then a else b) (if p then a' else b') := by
  split
  · exact ha
  · exact hb

theorem sameResult_writeVector (hc : s'.code = s.code) (rd : VReg) (v : BitVector) :
    SameResult i s s' (writeVector i rd v s) (writeVector i rd v s') := by
  rw [writeVector, writeVector, hc]
  exact sameResult_ite (sameResult_raiseBy _) ⟨_, _, rfl, rfl, .vector rd v⟩

theorem sameResult_writeVectors (hc : s'.code = s.code) (rd rc : VReg) (v u : BitVector) :
    SameResult i s s' (writeVectors i rd v rc u s) (writeVectors i rd v rc u s') := by
  rw [writeVectors, writeVectors, hc]
  exact sameResult_ite (sameResult_raiseBy _) ⟨_, _, rfl, rfl, .vectors rd rc v u⟩

theorem sameResult_writeLocated (hc : s'.code = s.code) (rd : VReg) (located : Except Kind (Option BitVector)) :
    SameResult i s s' (writeLocated i rd located s) (writeLocated i rd located s') := by
  match located with
  | .error k => exact sameResult_raiseBy k
  | .ok none => exact ⟨_, _, rfl, rfl, .notFound⟩
  | .ok (some e) =>
    rw [writeLocated, writeLocated, hc]
    exact sameResult_ite (sameResult_raiseBy _) ⟨_, _, rfl, rfl, .found rd e⟩

end

/-- Every command answers a next state, and in states that agree on its sources it does the same write: the meanings
read nothing but those sources (R21, R86, R249). -/
theorem sameResult_exec {i : Instr} {s s' : State} (h : AgreeOnSources i s s') :
    SameResult i s s' (exec i s) (exec i s') := by
  obtain ⟨hc, hv, hx, hcsr⟩ := h
  have vec := fun rd v => sameResult_writeVector (i := i) hc rd v
  cases i <;>
    simp only [namedRegs, List.mem_cons, List.not_mem_nil, or_false, forall_eq_or_imp, forall_eq] at hv hx <;>
    simp only [exec]
  case xli => exact sameResult_writeScalar _ _
  case csrr =>
    rw [execCsrr, execCsrr, hcsr]
    exact sameResult_ite (sameResult_writeScalar _ _) (sameResult_raiseBy _)
  case gld =>
    rw [execGld, execGld, hc]
    exact vec _ _
  case vzero =>
    simp only [execVzero, hc, hx]
    exact sameResult_ite (sameResult_raiseBy _) (sameResult_ite (sameResult_raiseBy _) (vec _ _))
  case vlit => exact sameResult_ite (vec _ _) (sameResult_raiseBy _)
  case vlen =>
    rw [execVlen, execVlen, hv]
    exact sameResult_writeScalar _ _
  case vadd =>
    simp only [execVadd, hv]
    exact sameResult_ite (sameResult_raiseBy _) (vec _ _)
  case vget =>
    simp only [execVget, hv, hx]
    exact sameResult_ite (sameResult_raiseBy _) (sameResult_writeScalar _ _)
  case vslice =>
    simp only [execVslice, hv, hx]
    exact sameResult_ite (sameResult_raiseBy _) (vec _ _)
  case vset =>
    simp only [execVset, hv, hx]
    exact sameResult_ite (sameResult_raiseBy _) (sameResult_ite (sameResult_raiseBy _) (vec _ _))
  case vcat =>
    simp only [execVcat, hv]
    exact vec _ _
  case vwt =>
    rw [execVwt, execVwt, hv]
    exact sameResult_writeScalar _ _
  case vror =>
    rw [execVror, execVror, hv, hx]
    exact vec _ _
  case seq =>
    simp only [execSeq, hc, hx]
    exact sameResult_ite (sameResult_raiseBy _) (sameResult_ite (sameResult_raiseBy _)
      (sameResult_ite (sameResult_raiseBy _) (vec _ _)))
  case ptrim =>
    rw [execPtrim, execPtrim, hv]
    exact vec _ _
  case pmono =>
    simp only [execPmono, hc, hx]
    exact sameResult_ite (sameResult_raiseBy _) (sameResult_ite (sameResult_raiseBy _) (vec _ _))
  case pdeg =>
    rw [execPdeg, execPdeg, hv]
    exact sameResult_writeScalar _ _
  case pwt =>
    rw [execPwt, execPwt, hv]
    exact sameResult_writeScalar _ _
  case padd =>
    simp only [execPadd, hv]
    exact vec _ _
  case pmul =>
    simp only [execPmul, hv]
    exact vec _ _
  case pdivmod =>
    simp only [execPdivmod, hv]
    exact sameResult_ite (sameResult_raiseBy _) (sameResult_ite (sameResult_raiseBy _)
      (sameResult_writeVectors hc _ _ _ _))
  case pquo =>
    simp only [execPquo, hv]
    exact sameResult_ite (sameResult_raiseBy _) (vec _ _)
  case prem =>
    simp only [execPrem, hv]
    exact sameResult_ite (sameResult_raiseBy _) (vec _ _)
  case pword =>
    simp only [execPword, hc, hv, hx]
    exact sameResult_ite (sameResult_raiseBy _) (sameResult_ite (sameResult_raiseBy _) (vec _ _))
  case enc =>
    simp only [execEnc, hc, hv]
    exact sameResult_ite (sameResult_raiseBy _) (vec _ _)
  case dec =>
    simp only [execDec, hc, hv]
    exact sameResult_ite (sameResult_raiseBy _) (vec _ _)
  case synd =>
    simp only [execSynd, hc, hv]
    exact sameResult_ite (sameResult_raiseBy _) (vec _ _)
  case synr =>
    simp only [execSynr, hc, hv, hx]
    exact sameResult_ite (sameResult_raiseBy _) (vec _ _)
  case btq =>
    rw [execBtq, execBtq, hc, hv]
    split
    · exact sameResult_raiseBy _
    · exact sameResult_writeScalar _ _
  case ferr =>
    simp only [execFerr, hc, hv]
    exact sameResult_ite (sameResult_raiseBy _) (sameResult_writeLocated hc _ _)
  case fpkg =>
    simp only [execFpkg, hc, hv]
    exact sameResult_ite (sameResult_raiseBy _) (sameResult_writeLocated hc _ _)

theorem exec_answers_next (i : Instr) (s : State) : ∃ t, exec i s = .next t := by
  obtain ⟨t, -, ht, -⟩ := sameResult_exec (AgreeOnSources.refl i s)
  exact ⟨t, ht⟩

/-- Settles O18: the two runs do the same write, by `sameResult_exec`. -/
theorem onlyNamedSourcesMatter : Obligations.OnlyNamedSourcesMatter := by
  intro i s s' t t' hc hv hx h1 h2 h3 h4 ht ht'
  have agree : AgreeOnSources i s s' :=
    ⟨hc.symm, fun r hr => (hv r hr).symm, fun r hr => congrArg BitVec.toInt (hx r hr).symm,
      State.csr_congr hc h1 h2 h3 h4⟩
  obtain ⟨u, u', hu, hu', hw⟩ := sameResult_exec agree
  obtain rfl : u = t := by simpa [hu] using ht
  obtain rfl : u' = t' := by simpa [hu'] using ht'
  obtain ⟨e1, e2, e3, e4⟩ := hw.record h1 h2 h3 h4
  exact ⟨e1, e2, e3, e4, fun r _ => hw.getV r, fun r _ => hw.getXWord r⟩

/-! ### A command word taken -/

/-- Settles O5. -/
theorem stepRunsTheDecodedCommand : Obligations.StepRunsTheDecodedCommand := by
  refine ⟨fun s w i later hs hh hd => step_executes hs hh hd, fun s w i hs hw => ?_⟩
  have hd : decode (tableWord 32 w) = .ok i := by
    unfold decodeTableWord at hw
    split at hw
    · next j hj => rwa [← Option.some.inj hw]
    · cases hw
  exact step_executes (s := s.offer (tableWord 32 w)) hs rfl hd

/-- A word taken by a block that has been reset takes one move off the host's queue and is answered with the fault
record as it stands then (R34, R35). -/
theorem step_answers {s : State} {w : Word} {later : List HostMove} (hl : legal s.code = true) (hlive : s.live = true)
    (hh : s.host = .command w :: later) :
    ∃ u : State, step s = .next u.respond ∧ u.host = later ∧ u.live = true := by
  by_cases hf : s.fault = true
  · exact ⟨_, step_refuses hl hlive hf hh, rfl, hlive⟩
  · have hs : s.Ready := ⟨hl, hlive, by simpa using hf⟩
    match hd : decode w with
    | .error e => exact ⟨_, step_illegal hs hh hd, rfl, hlive⟩
    | .ok i =>
      obtain ⟨u, hu⟩ := exec_answers_next i { s with host := later }
      have he := effect_of_exec hu
      refine ⟨u, ?_, he.host_eq, he.live_eq.trans hlive⟩
      rw [step_executes hs hh hd, hu, answer_next]

theorem State.rspCause_respond (u : State) : u.respond.outputs.rspCause = causeCode u.respond.cause := rfl

/-- Settles O9; that `rsp_cause` is 0 without a fault is the fault record's part of the invariant after the step. -/
theorem everyCommandIsAnswered : Obligations.EveryCommandIsAnswered := by
  refine ⟨exec_answers_next, fun s w later hs hlive hh => ?_⟩
  obtain ⟨u, hu, hhost, hulive⟩ := step_answers hs.1 hlive hh
  refine ⟨u.respond, hu, hhost, rfl, rfl, rfl, fun hf => ?_⟩
  obtain ⟨-, hr⟩ := (stepKeepsTheInvariant s u.respond hs hu).2 hulive
  rw [State.rspCause_respond, State.cause_of_recordOk hr hf, causeCode]

/-! ### The readout port -/

theorem getLsbD_vectorBits {lmax i : Nat} (v : BitVector) (hi : i < lmax) :
    (vectorBits lmax v).getLsbD i = v.getD i false := by
  simp [vectorBits, hi, BitVec.getLsbD_ofBoolListLE]

section

variable (s : State) {sel : BitVec 6}

theorem State.readout_vector {r : VReg} (h : sel.toNat = r.num.val) :
    s.readout sel = .ofVector s.code.lmax (s.getV r) := by
  have hlt : sel.toNat < 16 := by omega
  rw [State.readout, dif_pos hlt]
  exact congrArg (fun q => Readout.ofVector s.code.lmax (s.getV q)) (VReg.ext_num h)

theorem State.readout_scalar {r : XReg} (h : sel.toNat = 16 + r.num.val) :
    s.readout sel = .ofScalar s.code.lmax (s.getXWord r) := by
  have hge : ¬ sel.toNat < 16 := by omega
  have hlt : sel.toNat - 16 < 16 := by omega
  rw [State.readout, dif_neg hge, dif_pos hlt]
  exact congrArg (fun q => Readout.ofScalar s.code.lmax (s.getXWord q)) (XReg.ext_num (by simp only; omega))

theorem State.readout_of_ge (h : 32 ≤ sel.toNat) :
    s.readout sel =
      if sel.toNat ≤ 41 then .ofScalar s.code.lmax (s.csr (sel.toNat - 32))
      else if sel.toNat = 42 then .ofVector s.code.lmax s.code.g else ⟨0, 0, 0⟩ := by
  rw [State.readout, dif_neg (by omega), dif_neg (by omega)]

theorem State.readout_csr {m : Nat} (hm : m ≤ 9) (h : sel.toNat = 32 + m) :
    s.readout sel = .ofScalar s.code.lmax (s.csr m) := by
  rw [s.readout_of_ge (by omega), if_pos (by omega), h, Nat.add_sub_cancel_left]

theorem State.readout_generator (h : sel.toNat = 42) : s.readout sel = .ofVector s.code.lmax s.code.g := by
  rw [s.readout_of_ge (by omega), if_neg (by omega), if_pos h]

theorem State.readout_unused (h : 42 < sel.toNat) : s.readout sel = ⟨0, 0, 0⟩ := by
  rw [s.readout_of_ge (by omega), if_neg (by omega), if_neg (by omega)]

end

/-- Settles O13, selection by selection. -/
theorem readoutShowsTheSelection : Obligations.ReadoutShowsTheSelection := by
  intro s
  refine ⟨fun r sel h => ?_, fun r sel h => s.readout_scalar h, fun m hm sel h => s.readout_csr hm h, fun sel h => ?_,
    fun sel h => s.readout_unused h⟩
  · rw [s.readout_vector h]
    exact ⟨rfl, rfl, fun i hi => getLsbD_vectorBits _ hi⟩
  · rw [s.readout_generator h]
    exact ⟨rfl, rfl, fun i hi => getLsbD_vectorBits _ hi⟩

end Sys2Proof.Machine

/-! The statements about encodings (`30_encoding.md` R80 to R87). First what the fields of a built word read back, so
that a word decodes to its command; then the other direction, row by row of the opcode map; last, which commands can raise
`Capacity`. -/

namespace Sys2Proof

/-! ### The fields of a built word (R81, R82) -/

section

variable {op rd ra rb rc : Nat} (h : op < 256)
include h

@[simp] theorem vField_formatR_rd (r : VReg) (ha : ra < 16) (hb : rb < 16) (hc : rc < 16) :
    vField (formatR op r.num ra rb rc) 20 = r :=
  (vField_formatR h r.num ⟨ra, ha⟩ ⟨rb, hb⟩ ⟨rc, hc⟩).1

@[simp] theorem vField_formatR_ra (hd : rd < 16) (r : VReg) (hb : rb < 16) (hc : rc < 16) :
    vField (formatR op rd r.num rb rc) 16 = r :=
  (vField_formatR h ⟨rd, hd⟩ r.num ⟨rb, hb⟩ ⟨rc, hc⟩).2.1

@[simp] theorem vField_formatR_rb (hd : rd < 16) (ha : ra < 16) (r : VReg) (hc : rc < 16) :
    vField (formatR op rd ra r.num rc) 12 = r :=
  (vField_formatR h ⟨rd, hd⟩ ⟨ra, ha⟩ r.num ⟨rc, hc⟩).2.2.1

@[simp] theorem vField_formatR_rc (hd : rd < 16) (ha : ra < 16) (hb : rb < 16) (r : VReg) :
    vField (formatR op rd ra rb r.num) 8 = r :=
  (vField_formatR h ⟨rd, hd⟩ ⟨ra, ha⟩ ⟨rb, hb⟩ r.num).2.2.2

@[simp] theorem xField_formatR_rd (r : XReg) (ha : ra < 16) (hb : rb < 16) (hc : rc < 16) :
    xField (formatR op r.num ra rb rc) 20 = r :=
  (xField_formatR h r.num ⟨ra, ha⟩ ⟨rb, hb⟩ ⟨rc, hc⟩).1

@[simp] theorem xField_formatR_ra (hd : rd < 16) (r : XReg) (hb : rb < 16) (hc : rc < 16) :
    xField (formatR op rd r.num rb rc) 16 = r :=
  (xField_formatR h ⟨rd, hd⟩ r.num ⟨rb, hb⟩ ⟨rc, hc⟩).2.1

@[simp] theorem xField_formatR_rb (hd : rd < 16) (ha : ra < 16) (r : XReg) (hc : rc < 16) :
    xField (formatR op rd ra r.num rc) 12 = r :=
  (xField_formatR h ⟨rd, hd⟩ ⟨ra, ha⟩ r.num ⟨rc, hc⟩).2.2.1

@[simp] theorem xField_formatR_rc (hd : rd < 16) (ha : ra < 16) (hb : rb < 16) (r : XReg) :
    xField (formatR op rd ra rb r.num) 8 = r :=
  (xField_formatR h ⟨rd, hd⟩ ⟨ra, ha⟩ ⟨rb, hb⟩ r.num).2.2.2

@[simp] theorem opcodeOf_formatL_bits (r : VReg) (len : BitVec 4) (bits : BitVec 16) :
    opcodeOf (formatL op r.num len.toNat bits.toNat) = op :=
  opcodeOf_formatL h r.num.isLt len.isLt bits.isLt

@[simp] theorem vField_formatL (r : VReg) (len : BitVec 4) (bits : BitVec 16) :
    vField (formatL op r.num len.toNat bits.toNat) 20 = r := by
  apply VReg.ext_num
  rw [vField_num, formatL_toNat h r.num.isLt len.isLt bits.isLt]
  omega

@[simp] theorem lenField_formatL (r : VReg) (len : BitVec 4) (bits : BitVec 16) :
    lenField (formatL op r.num len.toNat bits.toNat) = len := by
  apply BitVec.eq_of_toNat_eq
  rw [lenField_toNat, formatL_toNat h r.num.isLt len.isLt bits.isLt]
  omega

@[simp] theorem bitsField_formatL (r : VReg) (len : BitVec 4) (bits : BitVec 16) :
    bitsField (formatL op r.num len.toNat bits.toNat) = bits := by
  apply BitVec.eq_of_toNat_eq
  rw [bitsField_toNat, formatL_toNat h r.num.isLt len.isLt bits.isLt]
  omega

@[simp] theorem opcodeOf_formatI_bits (r : XReg) (imm20 : BitVec 20) :
    opcodeOf (formatI op r.num imm20.toNat) = op :=
  opcodeOf_formatI h r.num.isLt imm20.isLt

@[simp] theorem xField_formatI (r : XReg) (imm20 : BitVec 20) : xField (formatI op r.num imm20.toNat) 20 = r := by
  apply XReg.ext_num
  rw [xField_num, formatI_toNat h r.num.isLt imm20.isLt]
  omega

@[simp] theorem imm20Field_formatI (r : XReg) (imm20 : BitVec 20) :
    imm20Field (formatI op r.num imm20.toNat) = imm20 := by
  apply BitVec.eq_of_toNat_eq
  rw [imm20Field_toNat, formatI_toNat h r.num.isLt imm20.isLt]
  omega

end

/-! ### Decoding the word of a command -/

section

variable {op : Nat} (h : op < 256) (rd ra rb rc : Fin 16) (i : Instr)
include h

theorem lowZero_formatR_one : lowZero 20 (formatR op rd 0 0 0) i = .ok i :=
  lowZero_eq_ok.2 ⟨(formatR_low h rd 0 0 0).2.2.2, rfl⟩

theorem lowZero_formatR_two : lowZero 16 (formatR op rd ra 0 0) i = .ok i :=
  lowZero_eq_ok.2 ⟨(formatR_low h rd ra 0 0).2.2.1, rfl⟩

theorem lowZero_formatR_three : lowZero 12 (formatR op rd ra rb 0) i = .ok i :=
  lowZero_eq_ok.2 ⟨(formatR_low h rd ra rb 0).2.1, rfl⟩

theorem lowZero_formatR_four : lowZero 8 (formatR op rd ra rb rc) i = .ok i :=
  lowZero_eq_ok.2 ⟨(formatR_low h rd ra rb rc).1, rfl⟩

end

theorem onlyIf_of_wellFormed {why : Illegal} {i : Instr} (h : i.wellFormed = true) : onlyIf why i = .ok i :=
  onlyIf_eq_ok.2 ⟨h, rfl⟩

/-- Settles O2, by the format of the command's row and the number of registers it names: the opcode selects the row, the
fields are read back, and the row's zero bits or its extra condition let the word pass. -/
theorem decodeOfEncodeIsTheCommand : Obligations.DecodeOfEncodeIsTheCommand := by
  intro i hi
  cases i
  case xli => simp [encode, decode]
  case csrr | vlit => simp [encode, decode, onlyIf_of_wellFormed hi]
  case gld => simp [encode, decode, opcodeOf_formatR, lowZero_formatR_one]
  case vzero | vlen | vwt | ptrim | pmono | pdeg | pwt | enc | dec | synd | btq | ferr | fpkg =>
    simp [encode, decode, opcodeOf_formatR, lowZero_formatR_two]
  case vadd | vget | vset | vcat | vror | seq | padd | pmul | pquo | prem | pword | synr =>
    simp [encode, decode, opcodeOf_formatR, lowZero_formatR_three]
  case vslice => simp [encode, decode, opcodeOf_formatR, lowZero_formatR_four]
  case pdivmod rd ra rb rc =>
    have low : (formatR 0x36 rd.num ra.num rb.num rc.num).toNat % 256 = 0 :=
      (formatR_low (by decide) rd.num ra.num rb.num rc.num).1
    simp [encode, decode, opcodeOf_formatR, low, onlyIf_of_wellFormed hi]

/-! ### The word with given fields (R81, R82) -/

section

variable {op : Nat} {w : Word} (ho : opcodeOf w = op)
include ho

theorem formatR_of_four (h : w.toNat % 2 ^ 8 = 0) :
    formatR op (vField w 20).num (vField w 16).num (vField w 12).num (vField w 8).num = w := by
  apply BitVec.eq_of_toNat_eq
  rw [opcodeOf_eq] at ho
  have := w.isLt
  simp only [formatR, BitVec.toNat_ofNat, vField_num]
  omega

theorem formatR_of_three (h : w.toNat % 2 ^ 12 = 0) :
    formatR op (vField w 20).num (vField w 16).num (vField w 12).num 0 = w := by
  have hc : (vField w 8).num.val = 0 := by rw [vField_num]; omega
  simpa only [hc] using formatR_of_four ho (by omega)

theorem formatR_of_two (h : w.toNat % 2 ^ 16 = 0) : formatR op (vField w 20).num (vField w 16).num 0 0 = w := by
  have hb : (vField w 12).num.val = 0 := by rw [vField_num]; omega
  simpa only [hb] using formatR_of_three ho (by omega)

theorem formatR_of_one (h : w.toNat % 2 ^ 20 = 0) : formatR op (vField w 20).num 0 0 0 = w := by
  have ha : (vField w 16).num.val = 0 := by rw [vField_num]; omega
  simpa only [ha] using formatR_of_two ho (by omega)

theorem formatL_of_fields : formatL op (vField w 20).num (lenField w).toNat (bitsField w).toNat = w := by
  apply BitVec.eq_of_toNat_eq
  rw [opcodeOf_eq] at ho
  have := w.isLt
  simp only [formatL, BitVec.toNat_ofNat, vField_num, lenField_toNat, bitsField_toNat]
  omega

theorem formatI_of_fields : formatI op (xField w 20).num (imm20Field w).toNat = w := by
  apply BitVec.eq_of_toNat_eq
  rw [opcodeOf_eq] at ho
  have := w.isLt
  simp only [formatI, BitVec.toNat_ofNat, xField_num, imm20Field_toNat]
  omega

end

/-! ### The rows of the opcode map (R84) -/

theorem opcode_eq_of_accepts {r : OpcodeRow} (hr : r ∈ opcodeMap) {w : Word} (h : r.accepts w = true) :
    opcodeOf w = opcodeOf r.pattern := by
  have hmask : ∀ r ∈ opcodeMap, r.mask.extractLsb' 24 8 = BitVec.allOnes 8 := by decide
  obtain ⟨hp, -⟩ : w &&& r.mask = r.pattern ∧ r.extra w = true := by simpa [OpcodeRow.accepts] using h
  rw [opcodeOf, opcodeOf, ← hp, BitVec.extractLsb'_and, hmask r hr, BitVec.and_allOnes]

theorem row_eq_of_opcode_eq :
    ∀ r ∈ opcodeMap, ∀ r' ∈ opcodeMap, opcodeOf r.pattern = opcodeOf r'.pattern → r = r' := by
  decide

/-- The row of opcode `op` whose words have their `m` lowest bits zero. -/
def rowOf (mnemonic : String) (op m : Nat) : OpcodeRow :=
  ⟨mnemonic, BitVec.ofNat 32 (op * 2 ^ 24), BitVec.ofNat 32 (0xFF000000 ||| (2 ^ m - 1))⟩

/-- The row `r` decides what the decoder's answer `d` to the word `w` is: the command `i` when it accepts the word, no
command else; and `i` has the row's mnemonic, its extra condition and the word accepted (R84, R85). -/
structure Governs (r : OpcodeRow) (w : Word) (i : Instr) (d : Except Illegal Instr) : Prop where
  mem : r ∈ opcodeMap
  opcode : opcodeOf w = opcodeOf r.pattern
  mnemonic : i.mnemonic = r.mnemonic
  decodes : ∀ j, d = .ok j ↔ r.accepts w = true ∧ i = j
  encodes : r.accepts w = true → encode i = w ∧ i.wellFormed = true

section

variable (name : String) {op m : Nat} {w : Word} {i : Instr} {d : Except Illegal Instr}

theorem rowOf_accepts_iff (hm : m ≤ 24) (hop : op < 256) (ho : opcodeOf w = op) :
    (rowOf name op m).accepts w = true ↔ w.toNat % 2 ^ m = 0 ∧ (rowOf name op m).extra w = true := by
  have := and_mask_eq_iff w m op hm hop
  simp only [OpcodeRow.accepts, Bool.and_eq_true, beq_iff_eq]
  exact and_congr_left' (this.trans (and_iff_right ho))

theorem governs_of_checks (hr : rowOf name op m ∈ opcodeMap ∧ m ≤ 24 ∧ op < 256) (ho : opcodeOf w = op)
    (hn : i.mnemonic = name) (hx : (rowOf name op m).extra w = i.wellFormed)
    (hd : ∀ j, d = .ok j ↔ w.toNat % 2 ^ m = 0 ∧ i.wellFormed = true ∧ i = j)
    (he : w.toNat % 2 ^ m = 0 → encode i = w) : Governs (rowOf name op m) w i d := by
  obtain ⟨hmem, hm, hop⟩ := hr
  have ha := rowOf_accepts_iff name hm hop ho
  rw [hx] at ha
  refine ⟨hmem, ?_, hn, fun j => ?_, fun h => ?_⟩
  · have : opcodeOf (rowOf name op m).pattern = op := by
      simp only [rowOf, opcodeOf_eq, BitVec.toNat_ofNat]
      omega
    rw [ho, this]
  · rw [hd j, ha, and_assoc]
  · obtain ⟨hlow, hwf⟩ := ha.1 h
    exact ⟨he hlow, hwf⟩

theorem governs_lowZero (hr : rowOf name op m ∈ opcodeMap ∧ m ≤ 24 ∧ op < 256) (ho : opcodeOf w = op)
    (hn : i.mnemonic = name) (hx : (rowOf name op m).extra w = true) (hi : i.wellFormed = true)
    (he : w.toNat % 2 ^ m = 0 → encode i = w) : Governs (rowOf name op m) w i (lowZero m w i) :=
  governs_of_checks name hr ho hn (hx.trans hi.symm) (fun j => by rw [lowZero_eq_ok, hi]; simp) he

theorem governs_onlyIf {why : Illegal} (hr : rowOf name op 0 ∈ opcodeMap ∧ 0 ≤ 24 ∧ op < 256) (ho : opcodeOf w = op)
    (hn : i.mnemonic = name) (hx : (rowOf name op 0).extra w = i.wellFormed) (he : encode i = w) :
    Governs (rowOf name op 0) w i (onlyIf why i) :=
  governs_of_checks name hr ho hn hx (fun j => by simp [onlyIf_eq_ok, Nat.mod_one]) fun _ => he

theorem governs_ok (hr : rowOf name op 0 ∈ opcodeMap ∧ 0 ≤ 24 ∧ op < 256) (ho : opcodeOf w = op)
    (hn : i.mnemonic = name) (hx : (rowOf name op 0).extra w = true) (hi : i.wellFormed = true) (he : encode i = w) :
    Governs (rowOf name op 0) w i (.ok i) :=
  governs_of_checks name hr ho hn (hx.trans hi.symm) (fun j => by simp [hi, Nat.mod_one]) fun _ => he

theorem governs_pdivmod (ho : opcodeOf w = 0x36) {i : Instr}
    (hi : i = .pdivmod (vField w 20) (vField w 16) (vField w 12) (vField w 8)) :
    Governs (rowOf "PDIVMOD" 0x36 8) w i
      (if w.toNat % 2 ^ 8 = 0 then onlyIf .sameDestination i else .error .nonzeroUnused) := by
  subst hi
  refine governs_of_checks "PDIVMOD" (by decide) ho rfl ?_ (fun j => ?_) (formatR_of_four ho)
  · have : ∀ a b : BitVec 4, (a != b) = ((⟨a.toFin⟩ : VReg) != ⟨b.toFin⟩) := by decide
    exact this _ _
  · split
    · next low => rw [onlyIf_eq_ok, and_iff_right low]
    · next low => simp only [reduceCtorEq, low, false_and]

end

/-- The opcode of a word selects the row that governs it, or there is no such row. -/
theorem decode_governed (w : Word) :
    (∃ r i, Governs r w i (decode w)) ∨
      (decode w = .error .unknownOpcode ∧ ∀ r ∈ opcodeMap, opcodeOf w ≠ opcodeOf r.pattern) := by
  generalize hd : decode w = d
  unfold decode at hd
  split at hd <;> subst hd
  case h_1 ho => exact .inl ⟨_, _, governs_ok "XLI" (by decide) ho rfl rfl rfl (formatI_of_fields ho)⟩
  case h_2 ho => exact .inl ⟨_, _, governs_onlyIf "CSRR" (by decide) ho rfl rfl (formatI_of_fields ho)⟩
  case h_3 ho => exact .inl ⟨_, _, governs_lowZero "GLD" (by decide) ho rfl rfl rfl (formatR_of_one ho)⟩
  case h_4 ho => exact .inl ⟨_, _, governs_lowZero "VZERO" (by decide) ho rfl rfl rfl (formatR_of_two ho)⟩
  case h_5 ho => exact .inl ⟨_, _, governs_onlyIf "VLIT" (by decide) ho rfl rfl (formatL_of_fields ho)⟩
  case h_6 ho => exact .inl ⟨_, _, governs_lowZero "VLEN" (by decide) ho rfl rfl rfl (formatR_of_two ho)⟩
  case h_7 ho => exact .inl ⟨_, _, governs_lowZero "VADD" (by decide) ho rfl rfl rfl (formatR_of_three ho)⟩
  case h_8 ho => exact .inl ⟨_, _, governs_lowZero "VGET" (by decide) ho rfl rfl rfl (formatR_of_three ho)⟩
  case h_9 ho => exact .inl ⟨_, _, governs_lowZero "VSLICE" (by decide) ho rfl rfl rfl (formatR_of_four ho)⟩
  case h_10 ho => exact .inl ⟨_, _, governs_lowZero "VSET" (by decide) ho rfl rfl rfl (formatR_of_three ho)⟩
  case h_11 ho => exact .inl ⟨_, _, governs_lowZero "VCAT" (by decide) ho rfl rfl rfl (formatR_of_three ho)⟩
  case h_12 ho => exact .inl ⟨_, _, governs_lowZero "VWT" (by decide) ho rfl rfl rfl (formatR_of_two ho)⟩
  case h_13 ho => exact .inl ⟨_, _, governs_lowZero "VROR" (by decide) ho rfl rfl rfl (formatR_of_three ho)⟩
  case h_14 ho => exact .inl ⟨_, _, governs_lowZero "SEQ" (by decide) ho rfl rfl rfl (formatR_of_three ho)⟩
  case h_15 ho => exact .inl ⟨_, _, governs_lowZero "PTRIM" (by decide) ho rfl rfl rfl (formatR_of_two ho)⟩
  case h_16 ho => exact .inl ⟨_, _, governs_lowZero "PMONO" (by decide) ho rfl rfl rfl (formatR_of_two ho)⟩
  case h_17 ho => exact .inl ⟨_, _, governs_lowZero "PDEG" (by decide) ho rfl rfl rfl (formatR_of_two ho)⟩
  case h_18 ho => exact .inl ⟨_, _, governs_lowZero "PWT" (by decide) ho rfl rfl rfl (formatR_of_two ho)⟩
  case h_19 ho => exact .inl ⟨_, _, governs_lowZero "PADD" (by decide) ho rfl rfl rfl (formatR_of_three ho)⟩
  case h_20 ho => exact .inl ⟨_, _, governs_lowZero "PMUL" (by decide) ho rfl rfl rfl (formatR_of_three ho)⟩
  case h_21 ho => exact .inl ⟨_, _, governs_pdivmod ho rfl⟩
  case h_22 ho => exact .inl ⟨_, _, governs_lowZero "PQUO" (by decide) ho rfl rfl rfl (formatR_of_three ho)⟩
  case h_23 ho => exact .inl ⟨_, _, governs_lowZero "PREM" (by decide) ho rfl rfl rfl (formatR_of_three ho)⟩
  case h_24 ho => exact .inl ⟨_, _, governs_lowZero "PWORD" (by decide) ho rfl rfl rfl (formatR_of_three ho)⟩
  case h_25 ho => exact .inl ⟨_, _, governs_lowZero "ENC" (by decide) ho rfl rfl rfl (formatR_of_two ho)⟩
  case h_26 ho => exact .inl ⟨_, _, governs_lowZero "DEC" (by decide) ho rfl rfl rfl (formatR_of_two ho)⟩
  case h_27 ho => exact .inl ⟨_, _, governs_lowZero "SYND" (by decide) ho rfl rfl rfl (formatR_of_two ho)⟩
  case h_28 ho => exact .inl ⟨_, _, governs_lowZero "SYNR" (by decide) ho rfl rfl rfl (formatR_of_three ho)⟩
  case h_29 ho => exact .inl ⟨_, _, governs_lowZero "BTQ" (by decide) ho rfl rfl rfl (formatR_of_two ho)⟩
  case h_30 ho => exact .inl ⟨_, _, governs_lowZero "FERR" (by decide) ho rfl rfl rfl (formatR_of_two ho)⟩
  case h_31 ho => exact .inl ⟨_, _, governs_lowZero "FPKG" (by decide) ho rfl rfl rfl (formatR_of_two ho)⟩
  case h_32 =>
    refine .inr ⟨rfl, fun r hr h => ?_⟩
    have known : ∀ r ∈ opcodeMap, opcodeOf r.pattern ∈ [0x01, 0x02, 0x03, 0x10, 0x11, 0x12, 0x13, 0x14, 0x15, 0x16,
        0x17, 0x18, 0x19, 0x20, 0x30, 0x31, 0x32, 0x33, 0x34, 0x35, 0x36, 0x37, 0x38, 0x39, 0x40, 0x41, 0x42, 0x43,
        0x44, 0x45, 0x46] := by decide
    have := h ▸ known r hr
    simp_all

theorem governs_of_decode {w : Word} {i : Instr} (h : decode w = .ok i) :
    ∃ r, Governs r w i (decode w) ∧ r.accepts w = true := by
  obtain ⟨r, j, hg⟩ | ⟨hu, -⟩ := decode_governed w
  · obtain ⟨ha, rfl⟩ := (hg.decodes i).1 h
    exact ⟨r, hg, ha⟩
  · simp [hu] at h

/-- Settles O3: the row that governs the word says so. -/
theorem encodeOfDecodeIsTheWord : Obligations.EncodeOfDecodeIsTheWord := by
  intro w i h
  obtain ⟨r, hg, ha⟩ := governs_of_decode h
  exact hg.encodes ha

theorem decode_of_accepts {r : OpcodeRow} (hr : r ∈ opcodeMap) {w : Word} (ha : r.accepts w = true) :
    ∃ i, decode w = .ok i ∧ i.mnemonic = r.mnemonic := by
  have ho := opcode_eq_of_accepts hr ha
  obtain ⟨r', i, hg⟩ | ⟨-, hu⟩ := decode_governed w
  · obtain rfl := row_eq_of_opcode_eq r hr r' hg.mem (ho.symm.trans hg.opcode)
    exact ⟨i, (hg.decodes i).2 ⟨ha, rfl⟩, hg.mnemonic⟩
  · exact absurd ho (hu r hr)

theorem decode_error_of_rejected {w : Word} (h : ∀ r ∈ opcodeMap, r.accepts w = false) : ∃ e, decode w = .error e := by
  match hd : decode w with
  | .error e => exact ⟨e, rfl⟩
  | .ok i =>
    obtain ⟨r, hg, ha⟩ := governs_of_decode hd
    simp [h r hg.mem] at ha

end Sys2Proof

namespace Sys2Proof.Machine

/-- Settles O4: acceptance by a row and decoding agree because one row governs the word, no two rows have one opcode,
and a word that does not decode is recorded by `step_illegal`. -/
theorem illegalWordsRaiseIllegalCommand : Obligations.IllegalWordsRaiseIllegalCommand := by
  refine ⟨fun w i h => ?_, fun w r hr ha => decode_of_accepts hr ha, fun w r hr r' hr' ha ha' => ?_,
    fun s w later hs hh hrej => ?_, by decide⟩
  · obtain ⟨r, hg, ha⟩ := governs_of_decode h
    exact ⟨r, hg.mem, ha, hg.mnemonic.symm⟩
  · exact row_eq_of_opcode_eq r hr r' hr' ((opcode_eq_of_accepts hr ha).symm.trans (opcode_eq_of_accepts hr' ha'))
  · obtain ⟨e, hd⟩ := decode_error_of_rejected hrej
    exact step_illegal hs hh hd

/-- Settles O1. -/
theorem decodesTheSpecsWords : Obligations.DecodesTheSpecsWords := by
  unfold Obligations.DecodesTheSpecsWords
  decide

/-! ### Which commands can raise `Capacity` (R87) -/

/-- The answer `r` to the command `i` in the state `s` is no entry of a `Capacity` fault (R87, R236). -/
def NoCapacity (i : Instr) (s : State) (r : Result) : Prop := r ≠ .next (s.raise .capacity (encode i))

section

variable {i : Instr} {s : State} {rd rc : VReg} {v u : BitVector}

theorem noCapacity_raiseBy {k : Kind} (hk : k ≠ .capacity) : NoCapacity i s (raiseBy k i s) := by
  intro h
  have := congrArg State.cause (raiseBy_eq_next.1 h)
  simp [hk.symm] at this

theorem noCapacity_ite {p : Prop} [Decidable p] {a b : Result} (ha : p → NoCapacity i s a)
    (hb : ¬ p → NoCapacity i s b) : NoCapacity i s (if p then a else b) := by
  split
  · exact ha ‹_›
  · exact hb ‹_›

/-- A check that raises another fault than `Capacity`. -/
theorem noCapacity_unless {p : Prop} [Decidable p] {k : Kind} {b : Result} (hb : ¬ p → NoCapacity i s b)
    (hk : k ≠ .capacity := by decide) : NoCapacity i s (if p then raiseBy k i s else b) :=
  noCapacity_ite (fun _ => noCapacity_raiseBy hk) hb

variable (hf : s.fault = false)
include hf

/-- A state without a recorded fault is no fault entry. -/
theorem noCapacity_next {t : State} (ht : t.fault = s.fault) : NoCapacity i s (.next t) := by
  intro h
  have := congrArg State.fault (Host.Outcome.next.inj h)
  simp [ht, hf] at this

theorem noCapacity_writeScalar (r : XReg) (z : Int) : NoCapacity i s (writeScalar r z s) :=
  noCapacity_next hf rfl

theorem noCapacity_writeVector (h : v.length ≤ s.code.lmax) : NoCapacity i s (writeVector i rd v s) := by
  rw [writeVector_of_le h]
  exact noCapacity_next hf rfl

theorem noCapacity_writeVectors (hv : v.length ≤ s.code.lmax) (hu : u.length ≤ s.code.lmax) :
    NoCapacity i s (writeVectors i rd v rc u s) := by
  rw [writeVectors_of_le hv hu]
  exact noCapacity_next hf rfl

theorem noCapacity_locate (hl : legal s.code = true) {w : BitVector} {accept : Poly → Except Kind Bool}
    (ha : ∀ p e, accept p = .error e → e = .lengthTooShort) :
    NoCapacity i s (writeLocated i rd (locate s.code w accept) s) := by
  match h : locate s.code w accept with
  | .error k => exact noCapacity_raiseBy (by simp [scan_error ha h])
  | .ok none => exact noCapacity_next hf rfl
  | .ok (some e) =>
    have hn : e.length = s.code.n := scan_found_length hl h
    have := legal_numbers hl
    exact noCapacity_ite (fun hlt => by omega) fun _ => noCapacity_next hf rfl

end

/-! ### Vectors that fit -/

section

variable {s : State} (hs : s.Bounded)
include hs

theorem State.Bounded.length_poly_le (r : VReg) : (poly (s.getV r)).length ≤ s.code.lmax :=
  (Machine.length_poly_le _).trans (hs.length_le r)

theorem State.Bounded.length_pquo_le (ra rb : VReg) (hb : poly (s.getV rb) ≠ []) :
    (pquo (poly (s.getV ra)) (poly (s.getV rb))).length ≤ s.code.lmax := by
  have := Machine.length_pquo_le (trim_poly (s.getV ra)) (trim_poly (s.getV rb)) hb
  have := hs.length_poly_le ra
  omega

theorem State.Bounded.length_prem_le (ra rb : VReg) (hb : poly (s.getV rb) ≠ []) :
    (prem (poly (s.getV ra)) (poly (s.getV rb))).length ≤ s.code.lmax := by
  have := length_prem_lt (trim_poly (s.getV ra)) (trim_poly (s.getV rb)) hb
  have := hs.length_poly_le rb
  omega

end

theorem length_vectorLiteral (len : BitVec 4) (bits : BitVec 16) : (vectorLiteral len bits).length = len.toNat := by
  simp [vectorLiteral]

/-- Every command but seven has results that fit, VLIT on a block with `LMAX >= 15` (R87). -/
theorem noCapacity_exec {i : Instr} {s : State} (hs : s.Bounded) (hf : s.fault = false)
    (hi : i.mnemonic ∉ ["VZERO", "VCAT", "SEQ", "PMONO", "PMUL", "PWORD"])
    (hlit : i.mnemonic = "VLIT" → 15 ≤ s.code.lmax) : NoCapacity i s (exec i s) := by
  have scalar := fun r z => noCapacity_writeScalar (i := i) hf r z
  have numbers := legal_numbers hs.1
  cases i <;> simp only [exec]
  case vzero | vcat | seq | pmono | pmul | pword => simp [Instr.mnemonic] at hi
  case xli => exact scalar _ _
  case csrr => exact noCapacity_ite (fun _ => scalar _ _) fun _ => noCapacity_raiseBy (by decide)
  case gld => exact noCapacity_writeVector hf (by omega)
  case vlit rd len bits =>
    have hl := hlit rfl
    exact noCapacity_ite (fun _ => noCapacity_writeVector hf (by rw [length_vectorLiteral]; omega))
      fun _ => noCapacity_raiseBy (by decide)
  case vlen => exact scalar _ _
  case vadd rd ra rb =>
    refine noCapacity_unless fun _ => noCapacity_writeVector hf ?_
    rw [length_vadd]
    exact (min_le_left _ _).trans (hs.length_le ra)
  case vget => exact noCapacity_unless fun _ => scalar _ _
  case vslice rd ra rb rc =>
    refine noCapacity_unless fun _ => noCapacity_writeVector hf ?_
    have := hs.length_le ra
    rw [length_slice]
    omega
  case vset rd ra rb =>
    refine noCapacity_unless fun _ => noCapacity_unless fun _ => noCapacity_writeVector hf ?_
    simpa using hs.length_le rd
  case vwt => exact scalar _ _
  case vror rd ra rb => exact noCapacity_writeVector hf (by simpa using hs.length_le ra)
  case ptrim rd ra => exact noCapacity_writeVector hf ((length_trim_le _).trans (hs.length_le ra))
  case pdeg => exact scalar _ _
  case pwt => exact scalar _ _
  case padd rd ra rb =>
    have := max_le (hs.length_poly_le ra) (hs.length_poly_le rb)
    exact noCapacity_writeVector hf ((length_padd_le _ _).trans this)
  case pdivmod rd ra rb rc =>
    exact noCapacity_unless fun _ => noCapacity_unless fun hb =>
      noCapacity_writeVectors hf (hs.length_pquo_le ra rb hb) (hs.length_prem_le ra rb hb)
  case pquo rd ra rb =>
    exact noCapacity_unless fun hb => noCapacity_writeVector hf (hs.length_pquo_le ra rb hb)
  case prem rd ra rb =>
    exact noCapacity_unless fun hb => noCapacity_writeVector hf (hs.length_prem_le ra rb hb)
  case enc rd ra =>
    refine noCapacity_unless fun hm => noCapacity_writeVector hf ?_
    rw [length_toWord (length_codeword hs.1 (not_not.1 hm))]
    omega
  case dec rd ra =>
    refine noCapacity_unless fun hw => noCapacity_writeVector hf ?_
    rw [length_toWord (length_message hs.1 (not_not.1 hw))]
    omega
  case synd rd ra =>
    refine noCapacity_unless fun _ => noCapacity_writeVector hf ?_
    have := length_syndrome_le hs.1 (s.getV ra)
    omega
  case synr rd ra rb =>
    refine noCapacity_unless fun _ => noCapacity_writeVector hf ?_
    have := length_shiftedSyndrome_le hs.1 (poly (s.getV ra)) (s.getX rb).toNat
    omega
  case btq rd ra =>
    rw [execBtq]
    split
    · next k hk => exact noCapacity_raiseBy (by simp [inBT_error hk])
    · exact scalar _ _
  case ferr =>
    exact noCapacity_unless fun _ => noCapacity_locate hf hs.1 (by simp [weightTest])
  case fpkg =>
    exact noCapacity_unless fun _ => noCapacity_locate hf hs.1 fun _ _ he => inBT_error he

/-- Settles O19, by `noCapacity_exec`. -/
theorem onlySevenCommandsRaiseCapacity : Obligations.OnlySevenCommandsRaiseCapacity := by
  intro i s hs hf h
  by_contra hno
  obtain ⟨hi, hlit⟩ := not_or.1 hno
  exact noCapacity_exec hs hf hi (fun hv => Nat.le_of_not_lt fun hlt => hlit ⟨hv, hlt⟩) h

end Sys2Proof.Machine

/-! The statements about the bit-vector commands (`40_bitvector.md`, with PDEG and PWT of `42_polynomial.md`). First the
words of the formats with unused fields, scalars read back, the literal and the degree; then rotation as Mathlib's
`List.rotate`; then the commands, clause by clause. -/

namespace Sys2Proof

/-! ### The number a word with unused fields is (R81) -/

section

variable {op : Nat} (h : op < 256) (rd ra rb : Fin 16)
include h

theorem formatR_toNat_two : (formatR op rd ra 0 0).toNat = op * 2 ^ 24 + rd * 2 ^ 20 + ra * 2 ^ 16 := by
  simpa using formatR_toNat_fin h rd ra 0 0

theorem formatR_toNat_three :
    (formatR op rd ra rb 0).toNat = op * 2 ^ 24 + rd * 2 ^ 20 + ra * 2 ^ 16 + rb * 2 ^ 12 := by
  simpa using formatR_toNat_fin h rd ra rb 0

end

/-- The extra condition of VLIT's row, bit by bit (R84). -/
theorem wellFormed_vlit_iff {rd : VReg} {len : BitVec 4} {bits : BitVec 16} :
    (Instr.vlit rd len bits).wellFormed = true ↔ ∀ i, len.toNat ≤ i → bits.getLsbD i = false := by
  rw [Instr.wellFormed, beq_iff_eq]
  constructor
  · intro h i hi
    have bit := congrArg (fun b => b.getLsbD (i - len.toNat)) h
    simpa [Nat.add_sub_cancel' hi] using bit
  · intro h
    apply BitVec.eq_of_getLsbD_eq
    intro i _
    simpa using h (len.toNat + i) (by omega)

theorem decode_vlit {w : Word} (ho : opcodeOf w = 0x11) :
    decode w = onlyIf .literalBits (.vlit (vField w 20) (lenField w) (bitsField w)) := by
  simp only [decode, ho]

theorem onlyIf_of_not_wellFormed {why : Illegal} {i : Instr} (h : ¬ i.wellFormed = true) : onlyIf why i = .error why :=
  if_neg h

end Sys2Proof

namespace Sys2Proof.Machine

/-! ### Scalars that are read back -/

section

variable {s : State}

theorem State.getX_setX_natCast (r : XReg) {m : Nat} (h : m < 2 ^ 31) : (s.setX r m).getX r = m :=
  s.getX_setX_same r (by omega) (by omega)

theorem State.getX_setX_bit (r : XReg) (b : Bool) :
    (s.setX r (if b then 1 else 0)).getX r = if b then 1 else 0 :=
  s.getX_setX_same r (by split <;> decide) (by split <;> decide)

/-- The length of a vector register fits a scalar register (R20, R171). -/
theorem State.Bounded.length_lt (h : s.Bounded) (r : VReg) : (s.getV r).length < 2 ^ 31 := by
  have := h.length_le r
  have := legal_numbers h.1
  omega

end

/-! ### Elements of a literal, degree of a vector -/

theorem getElem?_vectorLiteral {len : BitVec 4} {bits : BitVec 16} {i : Nat} (h : i < len.toNat) :
    (vectorLiteral len bits)[i]? = some (bits.getLsbD i) := by
  simp [vectorLiteral, h]

theorem neg_one_le_deg (a : Poly) : -1 ≤ deg a := by
  unfold deg
  omega

theorem deg_lt_length (a : Poly) : deg a < a.length := by
  unfold deg
  omega

/-- Above the degree every element is 0 (R142). -/
theorem getD_of_deg_lt {v : BitVector} {i : Nat} (h : deg (poly v) < i) : v.getD i false = false := by
  have hi : (poly v).length ≤ i := by
    unfold deg at h
    omega
  rw [← getD_trim v i]
  exact List.getD_eq_default _ _ hi

/-- At the degree, when there is one, stands a one (R142). -/
theorem getElem?_deg {v : BitVector} (h : 0 ≤ deg (poly v)) : v[(deg (poly v)).toNat]? = some true := by
  have hne : poly v ≠ [] := by
    intro h0
    simp [h0, deg] at h
  obtain ⟨u, hu⟩ := trimmed_eq_append (trim_poly v) hne
  have hd : (deg (poly v)).toNat = u.length := by simp [hu, deg]
  have hv : v = u ++ [true] ++ zeros (v.length - (poly v).length) := by
    rw [← hu]
    exact (trim_append_zeros_eq v).symm
  rw [hd, hv]
  simp

/-! ### Rotation -/

section

variable (v : BitVector)

/-- Rotation right by a positive amount, at most the length (R101). -/
theorem rotR_of_pos {a : Int} (h : 0 < a) :
    rotR v a = v.drop (v.length - min a.toNat v.length) ++ v.take (v.length - min a.toNat v.length) := by
  rw [rotR, if_neg (by omega), if_pos h]
  simp [slice]

/-- Rotation left by the amount negated, at most the length (R101). -/
theorem rotR_of_neg {a : Int} (h : a < 0) :
    rotR v a = v.drop (min (-a).toNat v.length) ++ v.take (min (-a).toNat v.length) := by
  rw [rotR, if_neg (by omega), if_neg (by omega)]
  simp [slice]

theorem rotR_eq_rotate {m : Nat} (h : m ≤ v.length) : rotR v m = v.rotate (v.length - m) := by
  rw [rotR_of_le v h, List.rotate_eq_drop_append_take (by omega)]

theorem rotR_neg_eq_rotate {m : Nat} (h : m ≤ v.length) : rotR v (-(m : Int)) = v.rotate m := by
  obtain rfl | hm := Nat.eq_zero_or_pos m
  · simp
  · rw [rotR_of_neg v (by omega), List.rotate_eq_drop_append_take h]
    simp [h]

variable {v}

/-- Where the elements of a rotated vector stand (R101). -/
theorem getElem?_rotate_mod {i k m : Nat} (hi : i < v.length) (h : k + m = i + v.length) :
    (v.rotate m)[k % v.length]? = v[i]? := by
  have hk : k % v.length < v.length := Nat.mod_lt _ (by omega)
  rw [List.getElem?_rotate hk, Nat.mod_add_mod, h, Nat.add_mod_right, Nat.mod_eq_of_lt hi]

/-- Amounts that move nothing (R101). -/
theorem rotR_of_beyond {a : Int} (h : (v.length : Int) ≤ a ∨ a ≤ -(v.length : Int)) : rotR v a = v :=
  h.elim (rotR_of_length_le v) (rotR_of_le_neg_length v)

end

/-- Settles O34: the amounts strictly between minus the length and the length are rotations of the library's lists. -/
theorem rotationFollowsTheSlices : Obligations.RotationFollowsTheSlices := by
  intro v a
  refine ⟨?_, rotR_of_pos v, rotR_of_neg v, length_rotR v a, fun h0 hL i hi => ?_, fun h0 hL i hi => ?_,
    rotR_of_beyond, ?_⟩
  · rintro rfl
    exact rotR_zero v
  · obtain ⟨m, rfl⟩ := Int.eq_ofNat_of_zero_le h0.le
    rw [rotR_eq_rotate v (by omega)]
    exact getElem?_rotate_mod hi (by omega)
  · obtain ⟨m, rfl⟩ := Int.exists_eq_neg_ofNat h0.le
    rw [rotR_neg_eq_rotate v (by omega)]
    exact getElem?_rotate_mod hi (by omega)
  · exact List.eq_nil_of_length_eq_zero (length_rotR [] a)

/-- Settles O35: the two rotations are together one by the length. -/
theorem rotationsCancel : Obligations.RotationsCancel := by
  intro v
  refine ⟨rotR_of_length_le v le_rfl, fun i hi => ?_⟩
  have hsub : (v.length : Int) - i = ((v.length - i : Nat) : Int) := by omega
  have htotal : v.length - i + (v.length - (v.length - i)) = v.length := by omega
  rw [hsub, rotR_eq_rotate _ (by rw [length_rotR]; omega), length_rotR, rotR_eq_rotate v hi, List.rotate_rotate, htotal,
    List.rotate_length]

/-! ### The commands -/

/-- Settles O26: the row's extra condition decides between writing the literal and an illegal word. -/
theorem vlitWritesTheLiteral : Obligations.VlitWritesTheLiteral := by
  refine ⟨fun s rd len bits hbits => ?_, fun w i ho hlen _ hbit => ?_⟩
  · have hexec : exec (.vlit rd len bits) s = writeVector (.vlit rd len bits) rd (vectorLiteral len bits) s :=
      if_pos (wellFormed_vlit_iff.2 hbits)
    have hlen := length_vectorLiteral len bits
    rw [hexec]
    exact ⟨fun hfit => ⟨_, writeVector_of_le (hlen.trans_le hfit), hlen, fun i hi => getElem?_vectorLiteral hi⟩,
      fun hlong => writeVector_of_lt (hlong.trans_eq hlen.symm),
      formatL_toNat (by decide) rd.num.isLt len.isLt bits.isLt⟩
  · rw [decode_vlit ho]
    apply onlyIf_of_not_wellFormed
    intro hwf
    simp [wellFormed_vlit_iff.1 hwf i hlen] at hbit

/-- Settles O27: each measure is at most the length, which fits a scalar register; trimming keeps the weight. -/
theorem measuresOfAVector : Obligations.MeasuresOfAVector := by
  intro s rd ra hs
  have hlen := hs.length_lt ra
  have hwt : (s.getV ra).count true ≤ (s.getV ra).length := wt_le_length _
  have hlo := neg_one_le_deg (poly (s.getV ra))
  have hhi := deg_lt_length (poly (s.getV ra))
  have hpoly := length_poly_le (s.getV ra)
  refine ⟨⟨rfl, State.getX_setX_natCast rd hlen⟩, ⟨rfl, State.getX_setX_natCast rd (hwt.trans_lt hlen)⟩,
    ⟨deg (poly (s.getV ra)), rfl, s.getX_setX_same rd (by omega) (by omega), hlo, fun i hi => getD_of_deg_lt hi,
      getElem?_deg⟩,
    ?_, formatR_toNat_two (by decide) _ _, formatR_toNat_two (by decide) _ _, formatR_toNat_two (by decide) _ _,
    formatR_toNat_two (by decide) _ _⟩
  exact congrArg (fun m : Nat => writeScalar rd m s) (wt_trim (s.getV ra))

/-- Settles O30: a slice inside the vector is no longer than the vector, so it fits. -/
theorem vsliceCopiesTheRange : Obligations.VsliceCopiesTheRange := by
  intro s rd ra rb rc hs
  refine ⟨fun h0 hle hL => ?_, fun h => if_pos h, formatR_toNat_fin (by decide) _ _ _ _⟩
  have hlen := length_slice (s.getV ra) (s.getX rb).toNat (s.getX rc).toNat
  have hmax := hs.length_le ra
  refine ⟨_, (if_neg (by omega)).trans (writeVector_of_le (by omega)), by omega, fun i hi => ?_⟩
  rw [getElem?_slice, if_pos (by omega)]

/-- Settles O31, check by check in the order of R116; replacing an element keeps the length, so the result fits. -/
theorem vsetSetsOneElement : Obligations.VsetSetsOneElement := by
  intro s rd ra rb hs
  refine ⟨fun i b hi hlt hb => ?_, fun h0 h1 => if_pos ⟨h0, h1⟩, fun hb hi => ?_, formatR_toNat_three (by decide) _ _ _⟩
  · have hbit : ¬ (s.getX rb ≠ 0 ∧ s.getX rb ≠ 1) := by cases b <;> simp [hb]
    have hval : decide (s.getX rb = 1) = b := by cases b <;> simp [hb]
    have hfit : ((s.getV rd).set i b).length ≤ s.code.lmax := by simpa using hs.length_le rd
    refine (if_neg hbit).trans ((if_neg (by omega)).trans ?_)
    rw [hval, hi]
    exact writeVector_of_le hfit
  · exact (if_neg (by omega)).trans (if_pos hi)

/-- Settles O33: the clauses for single amounts are those of `rotR`. -/
theorem vrorRotatesByAnyAmount : Obligations.VrorRotatesByAnyAmount := by
  intro s rd ra rb hs
  have hexec : exec (.vror rd ra rb) s = .next (s.setV rd (rotR (s.getV ra) (s.getX rb))) :=
    writeVector_of_le (by simpa using hs.length_le ra)
  rw [hexec]
  refine ⟨rfl, fun a ha _ hL => ?_, fun a ha h0 hL => ?_, fun h => ?_, formatR_toNat_three (by decide) _ _ _⟩
  · rw [ha, rotR_of_le _ hL.le]
  · rw [ha, rotR_neg_eq_rotate _ hL.le, List.rotate_eq_drop_append_take hL.le]
  · obtain h0 | h := h
    · rw [h0, rotR_zero]
    · rw [rotR_of_beyond h]

/-- Settles O25, one of the three ranges of the length at a time. -/
theorem vzeroWritesZeros : Obligations.VzeroWritesZeros := by
  intro s rd ra
  refine ⟨fun h0 hL => ?_, fun h => if_pos h, fun h => ?_, formatR_toNat_two (by decide) _ _⟩
  · have hfit : (zeros (s.getX ra).toNat).length ≤ s.code.lmax := by
      rw [length_zeros]
      omega
    exact (if_neg (by omega)).trans ((if_neg (by omega)).trans (writeVector_of_le hfit))
  · exact (if_neg (by omega)).trans (if_pos h)

/-- Settles O28: the sum is as long as the first source, so it fits. -/
theorem vaddAddsElementwise : Obligations.VaddAddsElementwise := by
  intro s rd ra rb hs
  refine ⟨fun h => ?_, fun h => if_pos h, formatR_toNat_three (by decide) _ _ _⟩
  have hlen := length_vadd_of_eq h
  exact ⟨_, (if_neg (not_not.2 h)).trans (writeVector_of_le (hlen.trans_le (hs.length_le ra))), hlen,
    fun i => getD_vadd h i⟩

/-- Settles O29: an index at which the vector has an element passes the range check. -/
theorem vgetReadsOneElement : Obligations.VgetReadsOneElement := by
  intro s rd ra rb
  refine ⟨fun i b hi hb => ⟨?_, State.getX_setX_bit rd b⟩, fun h => if_pos h, formatR_toNat_three (by decide) _ _ _⟩
  have hlt : i < (s.getV ra).length := (List.getElem?_eq_some_iff.1 hb).1
  have hval : (s.getV ra).getD (s.getX rb).toNat false = b := by simp [hi, hb]
  exact (if_neg (by omega)).trans (by rw [hval, writeScalar_eq])

/-- Settles O32: the capacity check of the vector write is that of R117. -/
theorem vcatConcatenates : Obligations.VcatConcatenates := by
  intro s rd ra rb
  have hlen : (s.getV ra ++ s.getV rb).length = (s.getV ra).length + (s.getV rb).length := List.length_append
  exact ⟨fun h => writeVector_of_le (hlen.trans_le h), fun h => writeVector_of_lt (h.trans_eq hlen.symm),
    formatR_toNat_three (by decide) _ _ _⟩

end Sys2Proof.Machine

/-! The statements about the sequence generator (`41_seqgen.md`). First the elements of `seq`; then `gen(L)` as the list of
`seq(L, j)` over all positions, from which its size and the difference of its members follow; then SEQ. -/

namespace Sys2Proof.Machine

/-! ### The elements of a member (R131) -/

theorem getElem?_seq_zero {L : Nat} (h : 0 < L) (j : Nat) : (seq L j)[0]? = some (j.testBit (L - 1)) := by
  simp [seq, h]

theorem getElem?_seq_pos {L m : Nat} (h0 : 0 < m) (hm : m < L) (j : Nat) :
    (seq L j)[m]? = some (!(j.testBit (L - 1 - m))) := by
  simp [seq, hm, h0.ne']

/-- The last element is the complement of the lowest bit of the position; the others are those of half the position. -/
theorem seq_add_two (L j : Nat) : seq (L + 2) j = seq (L + 1) (j / 2) ++ [!(j.testBit 0)] := by
  rw [seq, List.range_succ, List.map_append, seq]
  congr 1
  · refine List.map_congr_left fun m hm => ?_
    have hweight : L + 1 - m = L - m + 1 := by
      have := List.mem_range.1 hm
      omega
    simp [Nat.testBit_div_two, hweight]
  · simp

/-- Equal members have equal bits at every weight below `2^L`, so they stand at the same position. -/
theorem seq_injOn {L j k : Nat} (hj : j < 2 ^ L) (hk : k < 2 ^ L) (h : seq L j = seq L k) : j = k := by
  refine Nat.eq_of_testBit_eq fun i => ?_
  by_cases hi : i < L
  · have hbit := congrArg (fun v : BitVector => v[L - 1 - i]?) h
    by_cases hlast : i = L - 1
    · subst hlast
      simpa [getElem?_seq_zero (by omega : 0 < L)] using hbit
    · have hweight : L - 1 - (L - 1 - i) = i := by omega
      simpa [getElem?_seq_pos (by omega : 0 < L - 1 - i) (by omega : L - 1 - i < L), hweight] using hbit
  · have hpow : 2 ^ L ≤ 2 ^ i := Nat.pow_le_pow_right (by decide) (Nat.le_of_not_lt hi)
    rw [Nat.testBit_lt_two_pow (hj.trans_le hpow), Nat.testBit_lt_two_pow (hk.trans_le hpow)]

/-! ### The generator as the list of its members (R130, R133) -/

theorem range_two_mul (m : Nat) : List.range (2 * m) = (List.range m).flatMap fun i => [2 * i, 2 * i + 1] := by
  induction m with
  | zero => rfl
  | succ m ih => simp [Nat.mul_succ, List.range_succ, ih]

/-- The recursion of R130 makes the members at the positions `2 * i` and `2 * i + 1` from the one at `i`, which is
`seq_add_two`. -/
theorem gen_eq_map_seq : ∀ L : Nat, gen L = (List.range (2 ^ L)).map (seq L)
  | 0 => rfl
  | 1 => by decide
  | L + 2 => by
    rw [gen, gen_eq_map_seq (L + 1), pow_succ' 2 (L + 1), range_two_mul, List.flatMap_map, List.map_flatMap]
    congr 1
    funext i
    have heven : seq (L + 2) (2 * i) = seq (L + 1) i ++ [true] := by
      simp [seq_add_two]
    have hodd : seq (L + 2) (2 * i + 1) = seq (L + 1) i ++ [false] := by
      have hhalf : (2 * i + 1) / 2 = i := by omega
      simp [seq_add_two, hhalf]
    simp [heven, hodd]

@[simp] theorem length_gen (L : Nat) : (gen L).length = 2 ^ L := by
  simp [gen_eq_map_seq]

theorem getElem?_gen {L j : Nat} (h : j < 2 ^ L) : (gen L)[j]? = some (seq L j) := by
  simp [gen_eq_map_seq, h]

theorem nodup_gen (L : Nat) : (gen L).Nodup := by
  rw [gen_eq_map_seq]
  exact List.nodup_range.map_on fun j hj k hk => seq_injOn (List.mem_range.1 hj) (List.mem_range.1 hk)

theorem length_of_mem_gen {L : Nat} {v : BitVector} (h : v ∈ gen L) : v.length = L := by
  rw [gen_eq_map_seq] at h
  obtain ⟨j, -, rfl⟩ := List.mem_map.1 h
  exact length_seq L j

/-- Every vector is a generated one that is one shorter with a last element, and both last elements are generated. -/
theorem mem_gen_length (v : BitVector) : v ∈ gen v.length := by
  induction v using List.reverseRecOn with
  | nil => simp [gen]
  | append_singleton w b ih =>
    rw [List.length_append, List.length_singleton]
    match hw : w.length with
    | 0 =>
      rw [List.length_eq_zero_iff.1 hw]
      cases b <;> decide
    | L + 1 =>
      rw [gen, List.mem_flatMap]
      rw [hw] at ih
      exact ⟨w, ih, by cases b <;> simp⟩

/-- Settles O37. -/
theorem seqIsTheMemberOfGen : Obligations.SeqIsTheMemberOfGen := by
  intro L j hj
  exact ⟨getElem?_gen hj, length_seq L j, fun h => getElem?_seq_zero h j, fun m h0 hm => getElem?_seq_pos h0 hm j⟩

/-- Settles O38. -/
theorem genIsComplete : Obligations.GenIsComplete := by
  intro L
  refine ⟨length_gen L, nodup_gen L, fun v => ⟨length_of_mem_gen, ?_⟩⟩
  rintro rfl
  exact mem_gen_length v

/-! ### The command -/

/-- SEQ on a natural length and position: the range check of R132 is `2^L <= j` for every `L`, since a scalar below `2^31`
reaches `2^L` for `L <= 30` only. -/
theorem exec_seq_natCast {s : State} {rd : VReg} {ra rb : XReg} {L j : Nat} (hL : s.getX ra = L) (hj : s.getX rb = j) :
    exec (.seq rd ra rb) s =
      if 2 ^ L ≤ j then raiseBy .outOfRange (.seq rd ra rb) s
      else if s.code.lmax < L then raiseBy .capacity (.seq rd ra rb) s
      else writeVector (.seq rd ra rb) rd (seq L j) s := by
  have hlt : j < 2 ^ 31 := by
    have := (s.getX_range rb).2
    omega
  have hshort : 2 ^ L ≤ j → L < 31 := fun h => (Nat.pow_lt_pow_iff_right (by decide)).1 (h.trans_lt hlt)
  have hrange : ((L : Int) ≤ 30 ∧ (2 : Int) ^ L ≤ j) ↔ 2 ^ L ≤ j := by
    have hcast : (2 : Int) ^ L ≤ j ↔ 2 ^ L ≤ j := by exact_mod_cast Iff.rfl
    rw [hcast, and_iff_right_iff_imp]
    exact fun h => by exact_mod_cast Nat.le_of_lt_succ (hshort h)
  refine (if_neg (by omega)).trans ?_
  rw [hL, hj, Int.toNat_natCast, Int.toNat_natCast]
  simp only [hrange, Nat.cast_lt]

/-- Settles O36: a negative operand fails the first check, and `exec_seq_natCast` decides the other cases. -/
theorem seqWritesTheMember : Obligations.SeqWritesTheMember := by
  intro s rd ra rb
  refine ⟨fun L j hL hj hlt hfit => ?_, fun h => if_pos h, fun L j hL hj hle => ?_, fun L j hL hj hlt hlong => ?_,
    formatR_toNat_three (by decide) _ _ _⟩
  · rw [exec_seq_natCast hL hj, if_neg hlt.not_ge, if_neg hfit.not_gt]
    exact ⟨_, writeVector_of_le ((length_seq L j).trans_le hfit), getElem?_gen hlt, length_seq L j⟩
  · rw [exec_seq_natCast hL hj, if_pos hle, raiseBy_eq]
  · rw [exec_seq_natCast hL hj, if_neg hlt.not_ge, if_pos hlong, raiseBy_eq]

end Sys2Proof.Machine

/-! The statements about polynomials (`42_polynomial.md`). First coefficients, trimmed results and the divider, carried to
Mathlib's polynomials by `toPoly`; then the ring laws and the division; then the commands, clause by clause. -/

namespace Sys2Proof

/-- A PDIVMOD word that names one destination twice does not decode (R84, R85). -/
theorem decode_encode_pdivmod_same (rd ra rb : VReg) :
    decode (encode (.pdivmod rd ra rb rd)) = .error .sameDestination := by
  have hlow : (formatR 0x36 rd.num ra.num rb.num rd.num).toNat % 256 = 0 :=
    (formatR_low (by decide) rd.num ra.num rb.num rd.num).1
  have hwf : ¬ (Instr.pdivmod rd ra rb rd).wellFormed = true := by simp [Instr.wellFormed]
  simp [encode, decode, opcodeOf_formatR, hlow, onlyIf_of_not_wellFormed hwf]

end Sys2Proof

namespace Sys2Proof.Machine

open Polynomial

/-! ### Coefficients -/

section

variable {a b : Poly}

theorem getD_poly (v : BitVector) (i : Nat) : (poly v).getD i false = v.getD i false := getD_trim v i

/-- Coefficient `i` of a sum (R143). -/
theorem getD_padd (a b : Poly) (i : Nat) : (padd a b).getD i false = xor (a.getD i false) (b.getD i false) := by
  apply bitValue_injective
  rw [← coeff_toPoly, toPoly_padd, coeff_add, coeff_toPoly, coeff_toPoly, bitValue_xor]

theorem bitValue_and (x y : Bool) : bitValue (x && y) = bitValue x * bitValue y := by
  cases x <;> simp

/-- The exclusive or of the bits below `m` is their sum over GF(2) (R8). -/
theorem bitValue_foldl_xor (f : Nat → Bool) (m : Nat) :
    bitValue ((List.range m).foldl (fun acc i => xor acc (f i)) false) = ∑ i ∈ Finset.range m, bitValue (f i) := by
  induction m with
  | zero => rfl
  | succ m ih => simp [List.range_succ, bitValue_xor, ih, Finset.sum_range_succ]

/-- Coefficient `m` of a product is the convolution of the coefficients (R145). -/
theorem getD_pmul (a b : Poly) (m : Nat) :
    (pmul a b).getD m false =
      (List.range (m + 1)).foldl (fun acc i => xor acc (a.getD i false && b.getD (m - i) false)) false := by
  apply bitValue_injective
  rw [bitValue_foldl_xor, ← coeff_toPoly, toPoly_pmul, coeff_mul, Finset.Nat.sum_antidiagonal_eq_sum_range_succ_mk]
  simp only [bitValue_and, coeff_toPoly]

/-! ### Trimmed vectors -/

theorem eq_nil_or_getLast?_of_trimmed (h : trim a = a) : a = [] ∨ a.getLast? = some true := by
  by_cases hne : a = []
  · exact .inl hne
  · obtain ⟨v, rfl⟩ := trimmed_eq_append h hne
    exact .inr (by simp)

theorem deg_lt_iff : deg a < deg b ↔ a.length < b.length := by
  simp [deg]

/-! ### The divider (R146) -/

theorem pdivmodLoop_of_length_lt {rem : Poly} (h : rem.length < b.length) (fuel : Nat) (q : Poly) :
    pdivmodLoop b fuel q rem = (q, rem) := by
  cases fuel with
  | zero => rfl
  | succ fuel => rw [pdivmodLoop, if_neg (by rw [deg_le_iff]; omega)]

/-- A dividend of lower degree is the remainder (R146). -/
theorem pdivmod_of_length_lt (h : a.length < b.length) : pdivmod a b = ([], a) :=
  pdivmodLoop_of_length_lt h _ _

theorem degree_toPoly_lt_degree (hb : trim b = b) (h : a.length < b.length) :
    (toPoly a).degree < (toPoly b).degree := by
  have hne : b ≠ [] := List.ne_nil_of_length_pos (by omega)
  obtain ⟨hmonic, hdeg⟩ := monic_toPoly hb hne
  rw [degree_eq_natDegree hmonic.ne_zero, hdeg]
  refine (degree_toPoly_lt a).trans_le ?_
  exact_mod_cast Nat.le_sub_one_of_lt h

variable (ha : trim a = a) (hb : trim b = b) (hne : b ≠ [])
include ha hb hne

theorem padd_pmul_pquo_prem : padd (pmul (pquo a b) b) (prem a b) = a :=
  toPoly_injective (trim_padd _ _) ha (by simp [toPoly_pdivmod ha hb hne])

/-- A nonzero quotient has the degrees' difference as degree (R146): the divisor is monic. -/
theorem deg_pquo (hq : pquo a b ≠ []) : deg (pquo a b) = deg a - deg b := by
  have hle : b.length ≤ a.length := by
    by_contra hlt
    exact hq (congrArg Prod.fst (pdivmod_of_length_lt (by omega)))
  have hpos : 0 < b.length := List.length_pos_iff.mpr hne
  have hqpos : 0 < (pquo a b).length := List.length_pos_iff.mpr hq
  obtain ⟨hmonic, hdegb⟩ := monic_toPoly hb hne
  have hdega := (monic_toPoly ha (List.ne_nil_of_length_pos (by omega))).2
  have hdegq := (monic_toPoly (trim_pquo ha hb hne) hq).2
  have hdiv := natDegree_divByMonic (toPoly a) hmonic
  rw [(toPoly_divMod ha hb hne).1, hdega, hdegb, hdegq] at hdiv
  unfold deg
  omega

/-- The remainder is that of Mathlib's division over a field (R146). -/
theorem toPoly_prem : toPoly (prem a b) = toPoly a % toPoly b := by
  rw [← (toPoly_divMod ha hb hne).2, modByMonic_eq_mod _ (monic_toPoly hb hne).1]

/-- Quotient and remainder are the only trimmed pair of the division law, since they are in Mathlib's division by a monic
polynomial. -/
theorem division_unique {q rem : Poly} (hq : trim q = q) (hrem : trim rem = rem) (heq : padd (pmul q b) rem = a)
    (hlt : rem.length < b.length) : q = pquo a b ∧ rem = prem a b := by
  have hring : toPoly rem + toPoly b * toPoly q = toPoly a := by
    rw [← heq, toPoly_padd, toPoly_pmul]
    ring
  obtain ⟨hdiv, hmod⟩ :=
    div_modByMonic_unique _ _ (monic_toPoly hb hne).1 ⟨hring, degree_toPoly_lt_degree hb hlt⟩
  obtain ⟨hdiv', hmod'⟩ := toPoly_divMod ha hb hne
  exact ⟨toPoly_injective hq (trim_pquo ha hb hne) (hdiv.symm.trans hdiv'),
    toPoly_injective hrem (trim_prem ha hb hne) (hmod.symm.trans hmod')⟩

end

/-- The remainder of a product is that of the product of the remainders (R160). -/
theorem prem_pmul (a b : Poly) {c : Poly} (ha : trim a = a) (hb : trim b = b) (hc : trim c = c) (hne : c ≠ []) :
    prem (pmul a b) c = prem (pmul (prem a c) (prem b c)) c := by
  apply toPoly_injective (trim_prem (trim_pmul _ _) hc hne) (trim_prem (trim_pmul _ _) hc hne)
  rw [toPoly_prem (trim_pmul _ _) hc hne, toPoly_prem (trim_pmul _ _) hc hne, toPoly_pmul, toPoly_pmul,
    toPoly_prem ha hc hne, toPoly_prem hb hc hne]
  exact mul_mod _ _ _

/-- Settles O46: trimmed vectors are equal when their polynomials over `ZMod 2` are. -/
theorem polynomialRingLaws : Obligations.PolynomialRingLaws := by
  intro a b c ha hb hc
  refine ⟨?_, ?_, ?_, ?_, ?_, ?_, prem_pmul a b ha hb hc⟩
  · exact toPoly_injective (trim_padd _ _) (trim_padd _ _) (by simp [add_comm])
  · exact toPoly_injective (trim_padd _ _) rfl (by simp [add_self_zmod2])
  · exact toPoly_injective (trim_padd _ _) ha (by simp)
  · exact toPoly_injective (trim_pmul _ _) (trim_pmul _ _) (by simp [mul_comm])
  · exact toPoly_injective (trim_pmul _ _) rfl (by simp)
  · exact toPoly_injective (trim_pmul _ _) ha (by simp)

/-- Settles O47. -/
theorem divisionIsCorrectAndUnique : Obligations.DivisionIsCorrectAndUnique := by
  intro a b ha hb hne
  exact ⟨padd_pmul_pquo_prem ha hb hne, deg_lt_iff.2 (length_prem_lt ha hb hne), deg_pquo ha hb hne,
    fun q rem hq hrem heq hlt => division_unique ha hb hne hq hrem heq (deg_lt_iff.1 hlt)⟩

/-! ### The commands -/

/-- Settles O43: the bounded sources bound both results, so both are written. -/
theorem pdivmodDivides : Obligations.PdivmodDivides := by
  refine ⟨fun s rd ra rb rc hs hrd => ⟨fun hne => ?_, fun h0 => ?_⟩,
    fun rd ra rb rc => formatR_toNat_fin (by decide) _ _ _ _, decode_encode_pdivmod_same⟩
  · have ha := trim_poly (s.getV ra)
    have hb := trim_poly (s.getV rb)
    refine ⟨pquo _ _, prem _ _, ?_, rfl, (padd_pmul_pquo_prem ha hb hne).symm,
      deg_lt_iff.2 (length_prem_lt ha hb hne), fun hlt => ?_⟩
    · exact (if_neg hrd).trans ((if_neg hne).trans
        (writeVectors_of_le (hs.length_pquo_le ra rb hne) (hs.length_prem_le ra rb hne)))
    · have hlow := pdivmod_of_length_lt (deg_lt_iff.1 hlt)
      exact ⟨congrArg Prod.fst hlow, congrArg Prod.snd hlow⟩
  · exact (if_neg hrd).trans (if_pos h0)

/-- Settles O44. -/
theorem pquoAndPremProject : Obligations.PquoAndPremProject := by
  intro s rd ra rb hs
  refine ⟨fun hne => ⟨?_, ?_, ?_⟩, fun h0 => ⟨if_pos h0, if_pos h0⟩, formatR_toNat_three (by decide) _ _ _,
    formatR_toNat_three (by decide) _ _ _⟩
  · exact (if_neg hne).trans (writeVector_of_le (hs.length_pquo_le ra rb hne))
  · exact (if_neg hne).trans (writeVector_of_le (hs.length_prem_le ra rb hne))
  · exact deg_lt_iff.2 (length_prem_lt (trim_poly _) (trim_poly _) hne)

/-- Settles O42: the lifted sources have the coefficients of the sources, and the capacity check is that of the vector
write. -/
theorem pmulConvolves : Obligations.PmulConvolves := by
  intro s rd ra rb
  refine ⟨pmul (poly (s.getV ra)) (poly (s.getV rb)), eq_nil_or_getLast?_of_trimmed (trim_pmul _ _), fun m => ?_,
    fun h => writeVector_of_le h, fun h => writeVector_of_lt h, formatR_toNat_three (by decide) _ _ _⟩
  simp only [getD_pmul, getD_poly]

/-- Settles O41: the sum is no longer than the longer source, so it fits. -/
theorem paddAddsCoefficients : Obligations.PaddAddsCoefficients := by
  intro s rd ra rb hs
  have hfit := (length_padd_le _ _).trans (max_le (hs.length_poly_le ra) (hs.length_poly_le rb))
  refine ⟨⟨_, writeVector_of_le hfit, eq_nil_or_getLast?_of_trimmed (trim_padd _ _), fun i => ?_⟩,
    formatR_toNat_three (by decide) _ _ _⟩
  rw [getD_padd, getD_poly, getD_poly]

/-- Settles O45, one of the three ranges of the length at a time. -/
theorem pwordExpands : Obligations.PwordExpands := by
  intro s rd ra rb
  refine ⟨fun L hL hle hmax => ?_, fun h => if_pos h, fun hle hmax => ?_, formatR_toNat_three (by decide) _ _ _⟩
  · have hlen := length_toWord hle
    have hexec : exec (.pword rd ra rb) s = .next (s.setV rd (toWord (poly (s.getV ra)) (s.getX rb).toNat)) :=
      (if_neg (by omega)).trans ((if_neg (by omega)).trans (writeVector_of_le (by simpa [hL] using hlen.trans_le hmax)))
    rw [hL, Int.toNat_natCast] at hexec
    refine ⟨_, hexec, hlen, rfl, fun i => ?_⟩
    rw [← getD_trim, trim_toWord, trim_poly, getD_poly]
  · exact (if_neg (by omega)).trans (if_pos hmax)

/-- Settles O39. -/
theorem ptrimDropsTrailingZeros : Obligations.PtrimDropsTrailingZeros := by
  intro s rd ra hs
  exact ⟨⟨_, _, writeVector_of_le (hs.length_poly_le ra), (trim_append_zeros_eq (s.getV ra)).symm,
    eq_nil_or_getLast?_of_trimmed (trim_trim _)⟩, formatR_toNat_two (by decide) _ _⟩

/-- Settles O40, one of the three ranges of the degree at a time. -/
theorem pmonoWritesTheMonomial : Obligations.PmonoWritesTheMonomial := by
  intro s rd ra
  refine ⟨fun d hd hfit => ?_, fun h => if_pos h, fun h0 hmax => ?_, formatR_toNat_two (by decide) _ _⟩
  · have hexec : exec (.pmono rd ra) s = .next (s.setV rd (mono (s.getX ra).toNat)) :=
      (if_neg (by omega)).trans ((if_neg (by omega)).trans (writeVector_of_le (by simpa [hd] using hfit)))
    rwa [hd, Int.toNat_natCast] at hexec
  · exact (if_neg (by omega)).trans (if_pos hmax)

/-! ### Every completed polynomial command writes trimmed vectors (R161) -/

/-- When the answer `r` to the command `i` is a completion, the destinations of `i` hold trimmed vectors after it. -/
def TrimsDestinations (i : Instr) (r : Result) : Prop :=
  ∀ t, r = .next t → t.fault = false → ∀ d ∈ (namedRegs i).vDests, trim (t.getV d) = t.getV d

section

variable {i : Instr} {s : State} {rd rc : VReg} {v u : BitVector}

theorem trimsDestinations_raiseBy {k : Kind} : TrimsDestinations i (raiseBy k i s) := by
  intro t ht hf
  rw [raiseBy_eq_next.1 ht, State.raise_fault] at hf
  contradiction

theorem trimsDestinations_unless {p : Prop} [Decidable p] {k : Kind} {r : Result}
    (hr : ¬ p → TrimsDestinations i r) : TrimsDestinations i (if p then raiseBy k i s else r) := by
  split
  · exact trimsDestinations_raiseBy
  · exact hr ‹_›

theorem trimsDestinations_writeVector (hd : (namedRegs i).vDests = [rd]) (hv : trim v = v) :
    TrimsDestinations i (writeVector i rd v s) := by
  intro t ht hf d hmem
  obtain ⟨-, rfl⟩ | ⟨-, rfl⟩ := writeVector_eq_next.1 ht
  · simp at hf
  · rw [hd, List.mem_singleton] at hmem
    rw [hmem, State.getV_setV_same, hv]

theorem trimsDestinations_writeVectors (hd : (namedRegs i).vDests = [rd, rc]) (hv : trim v = v) (hu : trim u = u) :
    TrimsDestinations i (writeVectors i rd v rc u s) := by
  intro t ht hf d hmem
  obtain ⟨-, rfl⟩ | ⟨-, -, rfl⟩ := writeVectors_eq_next.1 ht
  · simp at hf
  · rw [hd, List.mem_pair] at hmem
    simp only [State.getV_setV]
    split
    · exact hu
    · rw [if_pos (hmem.resolve_right ‹_›), hv]

end

theorem trimsDestinations_exec {i : Instr} {s : State}
    (hi : i.mnemonic ∈ ["PTRIM", "PMONO", "PADD", "PMUL", "PDIVMOD", "PQUO", "PREM"]) :
    TrimsDestinations i (exec i s) := by
  have ht := fun r => trim_poly (s.getV r)
  cases i
  case ptrim => exact trimsDestinations_writeVector rfl (trim_trim _)
  case pmono =>
    exact trimsDestinations_unless fun _ => trimsDestinations_unless fun _ =>
      trimsDestinations_writeVector rfl (trim_mono _)
  case padd => exact trimsDestinations_writeVector rfl (trim_padd _ _)
  case pmul => exact trimsDestinations_writeVector rfl (trim_pmul _ _)
  case pdivmod rd ra rb rc =>
    exact trimsDestinations_unless fun _ => trimsDestinations_unless fun hb =>
      trimsDestinations_writeVectors rfl (trim_pquo (ht ra) (ht rb) hb) (trim_prem (ht ra) (ht rb) hb)
  case pquo rd ra rb =>
    exact trimsDestinations_unless fun hb => trimsDestinations_writeVector rfl (trim_pquo (ht ra) (ht rb) hb)
  case prem rd ra rb =>
    exact trimsDestinations_unless fun hb => trimsDestinations_writeVector rfl (trim_prem (ht ra) (ht rb) hb)
  all_goals simp [Instr.mnemonic] at hi

/-- Settles O21, by `trimsDestinations_exec`. -/
theorem polynomialResultsAreTrimmed : Obligations.PolynomialResultsAreTrimmed :=
  fun _ _ t hi ht hf d hd => eq_nil_or_getLast?_of_trimmed (trimsDestinations_exec hi t ht hf d hd)

end Sys2Proof.Machine

/-! The statements about the cyclic code (`43_cyclic_code.md`). First what the polynomial laws give for encoding,
syndromes and the ROM; then the commands, clause by clause; last the steps without a command (R171, R262). -/

namespace Sys2Proof.Machine

open Polynomial

/-! ### Bounds that legality gives (R170, R171) -/

section

variable {c : CodeParams} (h : legal c = true)
include h

theorem legal_codeK_pos : 0 < codeK c := by
  obtain ⟨-, -, hk, -⟩ := legal_numbers h
  exact hk

theorem legal_p_le : c.p ≤ codeK c := by
  obtain ⟨-, -, -, -, hp, -⟩ := legal_iff.1 h
  exact hp

theorem legal_n_le : c.n ≤ c.lmax := by
  obtain ⟨-, -, -, -, -, hn, -⟩ := legal_iff.1 h
  exact hn

end

/-! ### Words and polynomials -/

/-- The polynomial of an expanded polynomial is the polynomial (R141, R149). -/
theorem poly_toWord {a : Poly} (ha : trim a = a) (L : Nat) : poly (toWord a L) = a := (trim_toWord a L).trans ha

/-- Vectors of one length are equal when they stand for one polynomial (R7). -/
theorem eq_of_toPoly_eq {v w : BitVector} (hl : v.length = w.length) (h : toPoly v = toPoly w) : v = w := by
  have hpoly : poly v = poly w := toPoly_injective (trim_poly v) (trim_poly w) (by simpa using h)
  rw [← toWord_poly v, ← toWord_poly w, hpoly, hl]

/-- Dividing a product by one factor leaves the other (R183). -/
theorem pquo_pmul_self {a b : Poly} (ha : trim a = a) (hb : trim b = b) (hne : b ≠ []) : pquo (pmul a b) b = a := by
  have hlaw : padd (pmul a b) [] = pmul a b := toPoly_injective (trim_padd _ _) (trim_pmul _ _) (by simp)
  exact (division_unique (trim_pmul a b) hb hne ha trim_nil hlaw (List.length_pos_iff.mpr hne)).1.symm

/-- A dividend of lower degree is its own remainder (R146). -/
theorem prem_of_length_lt {a b : Poly} (h : a.length < b.length) : prem a b = a := by
  rw [prem, pdivmod_of_length_lt h]

/-- Taking the remainder of a factor first does not change the remainder of the product (R160). -/
theorem prem_pmul_prem {a b c : Poly} (ha : trim a = a) (hb : trim b = b) (hc : trim c = c) (hne : c ≠ []) :
    prem (pmul a (prem b c)) c = prem (pmul a b) c := by
  have hidem : prem (prem b c) c = prem b c := prem_of_length_lt (length_prem_lt hb hc hne)
  rw [prem_pmul a (prem b c) ha (trim_prem hb hc hne) hc hne, hidem, prem_pmul a b ha hb hc hne]

/-! ### Codewords and syndromes -/

theorem shiftedSyndrome_zero (c : CodeParams) {p : Poly} (hp : trim p = p) : shiftedSyndrome c p 0 = prem p c.g := by
  have hone : pmul (mono 0) p = p := toPoly_injective (trim_pmul _ _) hp (by simp)
  rw [shiftedSyndrome, hone]

section

variable {c : CodeParams} (h : legal c = true)
include h

/-- A codeword has length `n` (R176). -/
theorem length_toWord_codeword {m : BitVector} (hm : m.length = codeK c) :
    (toWord (pmul (poly m) c.g) c.n).length = c.n :=
  length_toWord (length_codeword h hm)

theorem codeword_vadd {m m' : BitVector} (hm : m.length = codeK c) (hm' : m'.length = codeK c) :
    toWord (pmul (poly (vadd m m')) c.g) c.n
      = vadd (toWord (pmul (poly m) c.g) c.n) (toWord (pmul (poly m') c.g) c.n) := by
  have hlen := length_toWord_codeword h hm
  have hlen' := length_toWord_codeword h hm'
  have hsum := length_toWord_codeword h ((length_vadd_of_eq (hm.trans hm'.symm)).trans hm)
  have heq := hlen.trans hlen'.symm
  refine eq_of_toPoly_eq (hsum.trans (hlen.symm.trans (length_vadd_of_eq heq).symm)) ?_
  simp [toPoly_vadd heq, toPoly_vadd (hm.trans hm'.symm), add_mul]

theorem syndrome_vadd {w w' : BitVector} (hw : w.length = w'.length) :
    syndrome c (vadd w w') = padd (syndrome c w) (syndrome c w') := by
  apply toPoly_injective (trim_syndrome h _) (trim_padd _ _)
  simp only [toPoly_padd, toPoly_syndrome h, toPoly_vadd hw, add_modByMonic]

/-- One more shift of the product is one shift of its remainder (R179). -/
theorem shiftedSyndrome_succ (p : Poly) (i : Nat) :
    shiftedSyndrome c p (i + 1) = prem (shl (shiftedSyndrome c p i) 1) c.g := by
  have hone (a : Poly) : shl a 1 = pmul (mono 1) a := toPoly_injective (trim_shl _ _) (trim_pmul _ _) (by simp)
  have hmono : pmul (mono (i + 1)) p = pmul (mono 1) (pmul (mono i) p) :=
    toPoly_injective (trim_pmul _ _) (trim_pmul _ _) (by simp [pow_succ', mul_assoc])
  rw [shiftedSyndrome, shiftedSyndrome, hone, hmono,
    prem_pmul_prem (trim_mono 1) (trim_pmul _ _) (legal_trim h) (legal_ne_nil h)]

/-! ### The ROM (R173, R175) -/

/-- Amounts from `k` on move nothing, so those below `k` give every member. -/
theorem romMember_iff_lt_codeK {w : BitVector} :
    romMember c w = true ↔
      ∃ u ∈ gen c.p, ∃ a : Nat, a < codeK c ∧ w = rotR (u ++ zeros (codeK c - c.p)) a := by
  rw [romMember_iff]
  constructor
  · rintro ⟨u, hu, a, -, rfl⟩
    by_cases hlt : a < codeK c
    · exact ⟨u, hu, a, hlt, rfl⟩
    · have hlen : (u ++ zeros (codeK c - c.p)).length = codeK c := by
        simp [length_of_mem_gen hu, legal_p_le h]
      exact ⟨u, hu, 0, legal_codeK_pos h, rotR_of_length_le _ (by omega)⟩
  · rintro ⟨u, hu, a, ha, hw⟩
    exact ⟨u, hu, a, ha.trans_le (Nat.sub_le _ _), hw⟩

theorem length_of_romMember {w : BitVector} (hw : romMember c w = true) : w.length = codeK c := by
  obtain ⟨u, hu, a, -, rfl⟩ := romMember_iff.1 hw
  simp [length_of_mem_gen hu, legal_p_le h]

/-- The amount 0 leaves a burst where it is. -/
theorem romMember_append_zeros {u : BitVector} (hu : u.length = c.p) :
    romMember c (u ++ zeros (codeK c - c.p)) = true :=
  (romMember_iff_lt_codeK h).2 ⟨u, hu ▸ mem_gen_length u, 0, legal_codeK_pos h, rfl⟩

theorem romMember_zeros : romMember c (zeros (codeK c)) = true := by
  have hsplit : zeros c.p ++ zeros (codeK c - c.p) = zeros (codeK c) := by simp [zeros, legal_p_le h]
  exact hsplit ▸ romMember_append_zeros h (length_zeros c.p)

/-- The empty burst leaves only zeros to rotate. -/
theorem romMember_iff_of_p_zero (hp : c.p = 0) {w : BitVector} : romMember c w = true ↔ w = zeros (codeK c) := by
  refine ⟨fun hw => ?_, fun hw => hw ▸ romMember_zeros h⟩
  obtain ⟨u, hu, a, ha, rfl⟩ := (romMember_iff_lt_codeK h).1 hw
  obtain rfl : u = [] := List.eq_nil_of_length_eq_zero ((length_of_mem_gen hu).trans hp)
  rw [hp, List.nil_append, Nat.sub_zero, rotR_eq_rotate _ (by simpa using ha.le), zeros, List.rotate_replicate]

/-- A burst of length `k` is the whole member. -/
theorem romMember_iff_of_p_codeK (hp : c.p = codeK c) {w : BitVector} :
    romMember c w = true ↔ w.length = codeK c := by
  refine ⟨length_of_romMember h, fun hw => ?_⟩
  simpa [hp] using romMember_append_zeros h (hw.trans hp.symm)

end

/-- Settles O53. -/
theorem shiftedSyndromeStepForm : Obligations.ShiftedSyndromeStepForm :=
  fun _ p h hp => ⟨shiftedSyndrome_zero _ hp, shiftedSyndrome_succ h p⟩

/-- Settles O55, fact by fact. -/
theorem romContentFacts : Obligations.RomContentFacts :=
  fun _ h => ⟨fun _ => length_of_romMember h, romMember_zeros h, fun _ => romMember_iff_lt_codeK h,
    fun hp _ => romMember_iff_of_p_zero h hp, fun hp _ => romMember_iff_of_p_codeK h hp⟩

/-- Settles O56: both sides stand for the same polynomial over `ZMod 2`. -/
theorem encoderAndSyndromeAreLinear : Obligations.EncoderAndSyndromeAreLinear :=
  fun _ h => ⟨fun _ _ => codeword_vadd h, fun _ _ hw hw' => syndrome_vadd h (hw.trans hw'.symm)⟩

/-! ### The commands -/

section

variable {s : State} {ra : VReg} (hs : legal s.code = true)
include hs

theorem exec_enc_of_length (rd : VReg) (hm : (s.getV ra).length = codeK s.code) :
    exec (.enc rd ra) s = .next (s.setV rd (toWord (pmul (poly (s.getV ra)) s.code.g) s.code.n)) := by
  have hfit := (length_toWord_codeword hs hm).trans_le (legal_n_le hs)
  exact (if_neg (not_not.2 hm)).trans (writeVector_of_le hfit)

theorem exec_dec_of_length (rd : VReg) (hw : (s.getV ra).length = s.code.n) :
    exec (.dec rd ra) s = .next (s.setV rd (toWord (pquo (poly (s.getV ra)) s.code.g) (codeK s.code))) := by
  have hlen := length_toWord (length_message hs hw)
  have hnum := legal_numbers hs
  exact (if_neg (not_not.2 hw)).trans (writeVector_of_le (by omega))

theorem exec_synd_of_length (rd : VReg) (hw : (s.getV ra).length = s.code.n) :
    exec (.synd rd ra) s = .next (s.setV rd (syndrome s.code (s.getV ra))) := by
  have hlen := length_syndrome_le hs (s.getV ra)
  have hnum := legal_numbers hs
  exact (if_neg (not_not.2 hw)).trans (writeVector_of_le (by omega))

/-- The remainder fits whatever the amount: the product inside is no register write (R87, R181). -/
theorem exec_synr_natCast (rd : VReg) {rb : XReg} {i : Nat} (hi : s.getX rb = i) :
    exec (.synr rd ra rb) s = .next (s.setV rd (shiftedSyndrome s.code (poly (s.getV ra)) i)) := by
  have hlen := length_shiftedSyndrome_le hs (poly (s.getV ra)) i
  have hnum := legal_numbers hs
  refine (if_neg (by omega)).trans ?_
  rw [hi, Int.toNat_natCast]
  exact writeVector_of_le (by omega)

end

section

variable {s : State} {rd : XReg} {ra : VReg}

theorem exec_btq_of_le (h : (poly (s.getV ra)).length ≤ codeK s.code) :
    exec (.btq rd ra) s =
      .next (s.setX rd (if romMember s.code (toWord (poly (s.getV ra)) (codeK s.code)) then 1 else 0)) := by
  have htest : inBT s.code (poly (s.getV ra)) = .ok (romMember s.code (toWord (poly (s.getV ra)) (codeK s.code))) :=
    if_neg h.not_gt
  simp only [exec, execBtq, htest, writeScalar_eq]

theorem exec_btq_of_lt (h : codeK s.code < (poly (s.getV ra)).length) :
    exec (.btq rd ra) s = .next (s.raise .lengthTooShort (encode (.btq rd ra))) := by
  have htest : inBT s.code (poly (s.getV ra)) = .error .lengthTooShort := if_pos h
  simp only [exec, execBtq, htest, raiseBy_eq]

end

/-- Settles O48. -/
theorem encMultipliesByTheGenerator : Obligations.EncMultipliesByTheGenerator := by
  intro s rd ra hs
  rw [← codeK_eq hs.1, ne_eq, Int.natCast_inj]
  exact ⟨fun hm => ⟨_, exec_enc_of_length hs.1 rd hm, length_toWord_codeword hs.1 hm, rfl,
    poly_toWord (trim_pmul _ _) _⟩, fun hm => if_pos hm, formatR_toNat_two (by decide) _ _⟩

/-- Settles O49. -/
theorem decDividesByTheGenerator : Obligations.DecDividesByTheGenerator := by
  intro s rd ra hs
  have htrim := trim_pquo (trim_poly (s.getV ra)) (legal_trim hs.1) (legal_ne_nil hs.1)
  rw [← codeK_eq hs.1]
  exact ⟨fun hw => ⟨_, exec_dec_of_length hs.1 rd hw, congrArg Nat.cast (length_toWord (length_message hs.1 hw)), rfl,
    poly_toWord htrim _⟩, fun hw => if_pos hw, formatR_toNat_two (by decide) _ _⟩

/-- Settles O50: DEC divides the product that ENC wrote by the factor `g`. -/
theorem decodeOfEncodedMessage : Obligations.DecodeOfEncodedMessage := by
  intro s ra rb rc hs hm
  rw [← codeK_eq hs.1, Int.natCast_inj] at hm
  have hread := s.getV_setV_same rb (toWord (pmul (poly (s.getV ra)) s.code.g) s.code.n)
  have hlen := (congrArg List.length hread).trans (length_toWord_codeword hs.1 hm)
  refine ⟨_, _, exec_enc_of_length hs.1 rb hm, exec_dec_of_length (s := s.setV rb _) hs.1 rc hlen, ?_, rfl⟩
  rw [State.getV_setV_same, hread, State.setV_code, poly_toWord (trim_pmul _ _),
    pquo_pmul_self (trim_poly _) (legal_trim hs.1) (legal_ne_nil hs.1), ← hm, toWord_poly]

/-- Settles O51. -/
theorem syndTakesTheRemainder : Obligations.SyndTakesTheRemainder := by
  intro s rd ra hs
  rw [deg_g hs.1]
  exact ⟨fun hw => ⟨_, exec_synd_of_length hs.1 rd hw, rfl, trim_syndrome hs.1 _,
    Int.ofNat_le.2 (length_syndrome_le hs.1 _)⟩, fun hw => if_pos hw, formatR_toNat_two (by decide) _ _⟩

/-- Settles O52. -/
theorem synrShiftsTheSyndrome : Obligations.SynrShiftsTheSyndrome := by
  intro s rd ra rb hs
  rw [deg_g hs.1]
  exact ⟨fun i hi => ⟨_, exec_synr_natCast hs.1 rd hi, rfl, trim_shiftedSyndrome hs.1 _ _,
    Int.ofNat_le.2 (length_shiftedSyndrome_le hs.1 _ _)⟩, fun hi => if_pos hi, formatR_toNat_three (by decide) _ _ _⟩

/-- Settles O54: the two cases of a short source are those of `romMember_iff`. -/
theorem btqAsksTheRom : Obligations.BtqAsksTheRom := by
  intro s rd ra k hs hk
  rw [← codeK_eq hs.1, Int.natCast_inj] at hk
  subst hk
  refine ⟨fun hle => ?_, exec_btq_of_lt, formatR_toNat_two (by decide) _ _⟩
  rw [exec_btq_of_le hle]
  refine ⟨fun hmem => ?_, fun hnone => ?_⟩
  · rw [if_pos (romMember_iff.2 hmem)]
    exact ⟨rfl, State.getX_setX_bit rd true⟩
  · have hout : ¬ romMember s.code (toWord (poly (s.getV ra)) (codeK s.code)) = true := by
      rw [romMember_iff]
      rintro ⟨w, hw, a, ha, heq⟩
      exact hnone w hw a ha heq
    rw [if_neg hout]
    exact ⟨rfl, State.getX_setX_bit rd false⟩

/-! ### Steps without a command -/

theorem step_refused_of_not_live {s : State} {w : Word} {later : List HostMove} (hl : legal s.code = true)
    (hlive : s.live = false) (hh : s.host = .command w :: later) : step s = .refused .beforeFirstReset := by
  simp [step, fetch, hl, hh, State.cmdReady, hlive]

theorem step_refused_of_not_legal {s : State} (hl : legal s.code = false) :
    step s = .refused .invalidCodeParameters := by
  simp [step, fetch, hl]

/-- Settles O12. -/
theorem stepsWithoutACommand : Obligations.StepsWithoutACommand :=
  ⟨fun _ _ _ => step_refused_of_not_live, fun _ => step_refused_of_not_legal, fun _ _ => rfl, fun _ => step_idle⟩

end Sys2Proof.Machine

/-! The statements about the error locators (`44_error_locator.md`). First what the end of a locator does with each result
of the scan and what the two tests answer; then FERR and FPKG, clause by clause; last the located pattern, whose
polynomial is compared with that of the word modulo `g`. -/

namespace Sys2Proof.Machine

/-! ### The end of a locator (R200, R202) -/

section

variable {i : Instr} {rd : VReg} {s : State} {w : BitVector} {accept : Poly → Except Kind Bool}

/-- The first accepted amount gives the pattern; it has length `n`, so it fits. -/
theorem writeLocated_locate_of_accepted (hs : legal s.code = true) {m : Nat} (hm : m < s.code.n)
    (ha : accept (shiftedSyndrome s.code (syndrome s.code w) m) = .ok true)
    (hr : ∀ j, j < m → accept (shiftedSyndrome s.code (syndrome s.code w) j) = .ok false) :
    writeLocated i rd (locate s.code w accept) s = .next
      ((s.setV rd (rotR (toWord (shiftedSyndrome s.code (syndrome s.code w) m) s.code.n) (s.code.n - m))).setFound
        true) := by
  have hfound := locate_of_accepted hm ha hr
  have hfit := (scan_found_length hs hfound).trans_le (legal_n_le hs)
  exact writeLocated_eq_next.2 (.inr (.inr (.inr ⟨_, hfound, hfit, rfl⟩)))

theorem writeLocated_locate_of_error {m : Nat} {k : Kind} (hm : m < s.code.n)
    (ha : accept (shiftedSyndrome s.code (syndrome s.code w) m) = .error k)
    (hr : ∀ j, j < m → accept (shiftedSyndrome s.code (syndrome s.code w) j) = .ok false) :
    writeLocated i rd (locate s.code w accept) s = .next (s.raise k (encode i)) :=
  writeLocated_eq_next.2 (.inl ⟨k, locate_of_error hm ha hr, rfl⟩)

theorem writeLocated_locate_of_rejected
    (hr : ∀ j, j < s.code.n → accept (shiftedSyndrome s.code (syndrome s.code w) j) = .ok false) :
    writeLocated i rd (locate s.code w accept) s = .next (s.setFound false) :=
  writeLocated_eq_next.2 (.inr (.inl ⟨locate_of_rejected hr, rfl⟩))

/-- On a codeword a test that accepts the zero syndrome finds the all-zero pattern at amount 0 (R205). -/
theorem writeLocated_locate_of_codeword (hs : legal s.code = true) (hw : syndrome s.code w = [])
    (ha : accept [] = .ok true) :
    writeLocated i rd (locate s.code w accept) s = .next ((s.setV rd (zeros s.code.n)).setFound true) := by
  have hn : 0 < s.code.n := (legal_codeK_pos hs).trans_le (Nat.sub_le _ _)
  have hzero : shiftedSyndrome s.code (syndrome s.code w) 0 = [] := by
    rw [hw]
    exact shiftedSyndrome_zero s.code trim_nil
  have hpattern : rotR (toWord [] s.code.n) ((s.code.n : Int) - (0 : Nat)) = zeros s.code.n := by
    simp [toWord, rotR_of_length_le]
  rw [writeLocated_locate_of_accepted hs hn (by rw [hzero, ha]) (by simp), hzero, hpattern]

end

/-! ### The two tests (R202) -/

section

variable {c : CodeParams} {p : Poly}

theorem weightTest_of_le (h : wt p ≤ codeT c) : weightTest c p = .ok true :=
  congrArg Except.ok (decide_eq_true h)

theorem weightTest_of_lt (h : codeT c < wt p) : weightTest c p = .ok false :=
  congrArg Except.ok (decide_eq_false h.not_ge)

theorem tableTest_of_le {b : Bool} (h : p.length ≤ codeK c) (hb : romMember c (toWord p (codeK c)) = b) :
    tableTest c p = .ok b :=
  (if_neg h.not_gt).trans (congrArg Except.ok hb)

theorem tableTest_of_lt (h : codeK c < p.length) : tableTest c p = .error .lengthTooShort :=
  if_pos h

/-- The zero syndrome is in the ROM of every block (R175). -/
theorem tableTest_nil (h : legal c = true) : tableTest c [] = .ok true :=
  tableTest_of_le (Nat.zero_le _) (romMember_zeros h)

end

/-! ### The commands -/

section

variable {s : State} {ra : VReg} (hw : (s.getV ra).length = s.code.n)
include hw

theorem exec_ferr_of_length (rd : VReg) :
    exec (.ferr rd ra) s = writeLocated (.ferr rd ra) rd (locate s.code (s.getV ra) (weightTest s.code)) s :=
  if_neg (not_not.2 hw)

theorem exec_fpkg_of_length (rd : VReg) :
    exec (.fpkg rd ra) s = writeLocated (.fpkg rd ra) rd (locate s.code (s.getV ra) (tableTest s.code)) s :=
  if_neg (not_not.2 hw)

end

/-- Settles O57: each clause is one result of the scan under the weight test. -/
theorem ferrLocatesByWeight : Obligations.FerrLocatesByWeight := by
  intro s rd ra S hs hS
  obtain rfl : S = shiftedSyndrome s.code (syndrome s.code (s.getV ra)) := funext hS
  rw [← codeT_eq hs.1]
  simp only [Int.ofNat_le, Int.ofNat_lt]
  refine ⟨fun hw => ?_, fun hw => if_pos hw, formatR_toNat_two (by decide) _ _⟩
  rw [exec_ferr_of_length hw]
  exact ⟨fun i hi hacc hrej => writeLocated_locate_of_accepted hs.1 hi (weightTest_of_le hacc) fun j hj =>
      weightTest_of_lt (hrej j hj),
    fun hrej => writeLocated_locate_of_rejected fun j hj => weightTest_of_lt (hrej j hj)⟩

/-- Settles O58: each clause is one result of the scan under the table test. -/
theorem fpkgLocatesByTable : Obligations.FpkgLocatesByTable := by
  intro s rd ra S k hs hk hS
  obtain rfl : S = shiftedSyndrome s.code (syndrome s.code (s.getV ra)) := funext hS
  rw [← codeK_eq hs.1, Int.natCast_inj] at hk
  subst hk
  have hreject {p : Poly} (h : p.length ≤ codeK s.code ∧ romMember s.code (toWord p (codeK s.code)) = false) :
      tableTest s.code p = .ok false := tableTest_of_le h.1 h.2
  refine ⟨fun hw => ?_, fun hw => if_pos hw, formatR_toNat_two (by decide) _ _⟩
  rw [exec_fpkg_of_length hw]
  exact ⟨fun i hi hle hmem hrej => writeLocated_locate_of_accepted hs.1 hi (tableTest_of_le hle hmem) fun j hj =>
      hreject (hrej j hj),
    fun i hi hlt hrej => writeLocated_locate_of_error hi (tableTest_of_lt hlt) fun j hj => hreject (hrej j hj),
    fun hrej => writeLocated_locate_of_rejected fun j hj => hreject (hrej j hj)⟩

/-- Settles O59: both tests accept the zero syndrome. -/
theorem codewordIsFoundWithZeroPattern : Obligations.CodewordIsFoundWithZeroPattern := by
  intro s rd ra hs hw hsynd
  rw [exec_ferr_of_length hw, exec_fpkg_of_length hw]
  exact ⟨writeLocated_locate_of_codeword hs.1 hsynd (weightTest_of_le (Nat.zero_le _)),
    writeLocated_locate_of_codeword hs.1 hsynd (tableTest_nil hs.1)⟩

/-! ### The located pattern modulo `g` (R207) -/

section

open Polynomial

/-- Rotation by `m` is multiplication by `x^m` up to a multiple of `x^L + 1`, `L` the length (R101, R179). -/
theorem toPoly_rotR (v : BitVector) {m : Nat} (h : m ≤ v.length) :
    toPoly (rotR v m) = X ^ m * toPoly v + (X ^ v.length + 1) * toPoly (v.drop (v.length - m)) := by
  have hsplit : toPoly v = toPoly (v.take (v.length - m)) + X ^ (v.length - m) * toPoly (v.drop (v.length - m)) := by
    conv_lhs => rw [← List.take_append_drop (v.length - m) v, toPoly_append]
    simp
  have hpow : (X ^ v.length : (ZMod 2)[X]) = X ^ m * X ^ (v.length - m) := by
    rw [← pow_add, Nat.add_sub_cancel' h]
  have hlen : (v.drop (v.length - m)).length = m := by
    rw [List.length_drop]
    omega
  have hcancel := add_self_zmod2 (X ^ m * X ^ (v.length - m) * toPoly (v.drop (v.length - m)))
  rw [rotR_of_le v h, toPoly_append, hlen, hpow]
  linear_combination (-X ^ m) * hsplit - hcancel

variable {c : CodeParams} (h : legal c = true)
include h

/-- A codeword is a word whose polynomial `g` divides (R178). -/
theorem syndrome_eq_nil_iff {w : BitVector} : syndrome c w = [] ↔ toPoly c.g ∣ toPoly w := by
  rw [← toPoly_eq_zero_iff (trim_syndrome h w), toPoly_syndrome h,
    modByMonic_eq_zero_iff_dvd (monic_toPoly (legal_trim h) (legal_ne_nil h)).1]

/-- The syndrome after `i` shifts is `x^i` times the word modulo `g` (R178, R179). -/
theorem mk_shiftedSyndrome (w : BitVector) (i : Nat) :
    AdjoinRoot.mk (toPoly c.g) (toPoly (shiftedSyndrome c (syndrome c w) i))
      = AdjoinRoot.mk (toPoly c.g) (X ^ i * toPoly w) := by
  have hmod (p : (ZMod 2)[X]) : AdjoinRoot.mk (toPoly c.g) (p %ₘ toPoly c.g) = AdjoinRoot.mk (toPoly c.g) p := by
    rw [AdjoinRoot.mk_eq_mk, modByMonic_eq_sub_mul_div]
    simp
  rw [toPoly_shiftedSyndrome h, hmod, map_mul, toPoly_syndrome h, hmod, map_mul]

/-- The located pattern of an amount up to `n` has the word's syndrome: the scan shifts by `x^i`, the rotation by
`x^(n-i)`, and `x^n` is 1 modulo `g` (R207). -/
theorem mk_locatedPattern (hg : toPoly c.g ∣ X ^ c.n + 1) (w : BitVector) {i : Nat} (hi : i ≤ c.n) :
    AdjoinRoot.mk (toPoly c.g) (toPoly (rotR (toWord (shiftedSyndrome c (syndrome c w) i) c.n) ((c.n : Int) - i)))
      = AdjoinRoot.mk (toPoly c.g) (toPoly w) := by
  set φ := AdjoinRoot.mk (toPoly c.g)
  set v := toWord (shiftedSyndrome c (syndrome c w) i) c.n
  have hlen : v.length = c.n := by
    have hle := length_shiftedSyndrome_le h (syndrome c w) i
    have hnum := legal_numbers h
    exact length_toWord (by omega)
  have hone : φ (X ^ c.n + 1) = 0 := AdjoinRoot.mk_eq_zero.2 hg
  have hv : φ (toPoly v) = φ (X ^ i * toPoly w) := by
    rw [toPoly_toWord]
    exact mk_shiftedSyndrome h w i
  calc φ (toPoly (rotR v ((c.n : Int) - i)))
      = φ (toPoly (rotR v ((c.n - i : Nat) : Int))) := by rw [Nat.cast_sub hi]
    _ = φ (X ^ (c.n - i)) * φ (toPoly v) := by
      rw [toPoly_rotR v (by omega), hlen, map_add, map_mul, map_mul, hone, zero_mul, add_zero]
    _ = φ ((X ^ c.n + 1) * toPoly w + toPoly w) := by
      rw [hv, ← map_mul, ← mul_assoc, ← pow_add, Nat.sub_add_cancel hi]
      congr 1
      linear_combination -add_self_zmod2 (toPoly w)
    _ = φ (toPoly w) := by rw [map_add, map_mul, hone, zero_mul, zero_add]

end

/-- Settles O60: word and pattern are equal modulo `g`, so their sum over GF(2) is a multiple of `g`. -/
theorem locatedPatternYieldsACodeword : Obligations.LocatedPatternYieldsACodeword := by
  intro c w e accept h hdiv hw hloc
  have hlen : e.length = c.n := scan_found_length h hloc
  refine ⟨hlen, (syndrome_eq_nil_iff h).2 ?_⟩
  have hg : toPoly c.g ∣ Polynomial.X ^ c.n + 1 := by
    have hmod := (toPoly_divMod (trim_padd (mono c.n) [true]) (legal_trim h) (legal_ne_nil h)).2
    rw [hdiv, toPoly_nil,
      Polynomial.modByMonic_eq_zero_iff_dvd (monic_toPoly (legal_trim h) (legal_ne_nil h)).1] at hmod
    simpa using hmod
  obtain ⟨i, hi, rfl⟩ := locate_found hloc
  rw [← AdjoinRoot.mk_eq_zero, toPoly_vadd (hw.trans hlen.symm), map_add, mk_locatedPattern h hg w hi.le, ← map_add,
    add_self_zmod2, map_zero]

end Sys2Proof.Machine

/-! The statements about the system commands (`45_system.md`). First the words of CSRR and GLD and when a
number is read back; then the values of the control registers as integers, by the map of R29; then the commands. -/

namespace Sys2Proof

/-! ### Words of CSRR and GLD (R81, R84) -/

theorem decode_csrr {w : Word} (ho : opcodeOf w = 0x02) :
    decode w = onlyIf .csrNumber (.csrr (xField w 20) (imm20Field w)) := by
  simp only [decode, ho]

theorem formatR_toNat_one {op : Nat} (h : op < 256) (rd : Fin 16) :
    (formatR op rd 0 0 0).toNat = op * 2 ^ 24 + rd * 2 ^ 20 := by
  simpa using formatR_toNat_two h rd 0

end Sys2Proof

namespace Sys2Proof.Machine

/-! ### Numbers that are read back -/

/-- A number below `2^31` stands in a word as itself (R9, R22). -/
theorem toInt_wordOfNat {m : Nat} (h : m < 2 ^ 31) : (BitVec.ofNat 32 m).toInt = m := by
  rw [BitVec.toInt_eq_toNat_of_lt] <;> rw [BitVec.toNat_ofNat] <;> omega

theorem toInt_bitWord (b : Bool) : (bitWord b).toInt = if b then 1 else 0 := by
  cases b <;> rfl

theorem State.getX_setX_toInt (s : State) (r : XReg) (w : Word) : (s.setX r w.toInt).getX r = w.toInt :=
  s.getX_setX_same r w.le_toInt w.toInt_lt

/-! ### The control registers (R29) -/

section

variable {s : State}

/-- Numbers 0 to 5 hold the constants of the block; none exceeds `LMAX`, so each is the integer it stands for. -/
theorem State.toInt_csr_constants (h : legal s.code = true) :
    (s.csr 0).toInt = s.code.n ∧ (s.csr 1).toInt = deg s.code.g ∧ (s.csr 2).toInt = s.code.n - deg s.code.g ∧
      (s.csr 3).toInt = (s.code.n - deg s.code.g - 1) / 2 ∧ (s.csr 4).toInt = s.code.p ∧
      (s.csr 5).toInt = s.code.lmax := by
  have hnum := legal_numbers h
  have ht : codeT s.code ≤ codeK s.code := (Nat.div_le_self _ _).trans (Nat.sub_le _ _)
  rw [← codeT_eq h, ← codeK_eq h, deg_g h]
  refine ⟨?_, ?_, ?_, ?_, ?_, ?_⟩ <;> exact toInt_wordOfNat (by omega)

/-- The cause code has four bits, so the word of number 8 is not negative (R27). -/
theorem State.toInt_causeWord : s.causeWord.toInt = (causeCode s.cause).toNat := by
  have hc := (causeCode s.cause).isLt
  have hw : s.causeWord.toNat = (causeCode s.cause).toNat := BitVec.toNat_setWidth_of_le (by decide)
  rw [BitVec.toInt_eq_toNat_of_lt (by omega), hw]

/-- While no fault is recorded `FCMD` is 0 (R28). -/
theorem State.fcmd_of_recordOk (h : s.recordOk = true) (hf : s.fault = false) : s.fcmd = 0 := by
  simpa [State.recordOk, State.cause_of_recordOk h hf, hf] using h

/-- Numbers 7 to 9 hold the fault record, which is all zero in a block ready to execute (R26 to R28). -/
theorem State.toInt_csr_faultRecord (hs : s.Inv) (hr : s.Ready) : ∀ m ∈ [7, 8, 9], (s.csr m).toInt = 0 := by
  obtain ⟨-, hlive, hf⟩ := hr
  have hrec := (hs.2 hlive).2
  have hcause := State.cause_of_recordOk hrec hf
  have hfcmd := State.fcmd_of_recordOk hrec hf
  simp [State.csr, State.statusWord, State.causeWord, hf, hcause, hfcmd, bitWord, causeCode]

/-- CSRR of a number of the map of R29 completes with the register's value, which is read back. -/
theorem exec_csrr_of_toInt_csr {rd : XReg} {imm20 : BitVec 20} {m : Nat} {z : Int} (hm : imm20.toNat = m) (h9 : m ≤ 9)
    (hz : (s.csr m).toInt = z) :
    exec (.csrr rd imm20) s = .next (s.setX rd z) ∧ (s.setX rd z).getX rd = z := by
  subst hm hz
  exact ⟨if_pos h9, s.getX_setX_toInt rd _⟩

end

/-! ### The commands -/

/-- Settles O22: a signed 20-bit integer fits a scalar register. -/
theorem xliLoadsTheImmediate : Obligations.XliLoadsTheImmediate := by
  intro s rd imm20
  have hlo : -524288 ≤ imm20.toInt := imm20.le_toInt
  have hhi : imm20.toInt < 524288 := imm20.toInt_lt
  exact ⟨rfl, s.getX_setX_same rd (by omega) (by omega), hlo, by omega,
    formatI_toNat (by decide) rd.num.isLt imm20.isLt⟩

/-- Settles O23: the map of R29 register by register; in a ready block the fault record is all zero; the row's extra
condition rejects a number above 9. -/
theorem csrrReadsTheControlRegister : Obligations.CsrrReadsTheControlRegister := by
  refine ⟨fun s rd imm20 z hs h => ?_, fun s rd imm20 hinv hready hm => ?_,
    fun rd imm20 => formatI_toNat (by decide) rd.num.isLt imm20.isLt, fun w ho h9 => ?_⟩
  · obtain ⟨hn, hr, hk, ht, hp, hlmax⟩ := State.toInt_csr_constants hs.1
    simp only [List.mem_cons, List.not_mem_nil, or_false, Prod.mk.injEq] at h
    obtain ⟨hm, rfl⟩ | ⟨hm, rfl⟩ | ⟨hm, rfl⟩ | ⟨hm, rfl⟩ | ⟨hm, rfl⟩ | ⟨hm, rfl⟩ | ⟨hm, rfl⟩ | ⟨hm, rfl⟩ | ⟨hm, rfl⟩ |
      ⟨hm, rfl⟩ := h
    · exact exec_csrr_of_toInt_csr hm (by decide) hn
    · exact exec_csrr_of_toInt_csr hm (by decide) hr
    · exact exec_csrr_of_toInt_csr hm (by decide) hk
    · exact exec_csrr_of_toInt_csr hm (by decide) ht
    · exact exec_csrr_of_toInt_csr hm (by decide) hp
    · exact exec_csrr_of_toInt_csr hm (by decide) hlmax
    · exact exec_csrr_of_toInt_csr hm (by decide) (toInt_bitWord s.found)
    · exact exec_csrr_of_toInt_csr hm (by decide) (toInt_bitWord s.fault)
    · exact exec_csrr_of_toInt_csr hm (by decide) State.toInt_causeWord
    · exact exec_csrr_of_toInt_csr hm (by decide) rfl
  · have h9 : imm20.toNat ≤ 9 := by
      simp only [List.mem_cons, List.not_mem_nil, or_false] at hm
      omega
    exact exec_csrr_of_toInt_csr rfl h9 (State.toInt_csr_faultRecord hinv hready _ hm)
  · rw [decode_csrr ho]
    apply onlyIf_of_not_wellFormed
    simpa [Instr.wellFormed] using h9

/-- Settles O24: `g` has length `r + 1 ≤ n ≤ LMAX`, so it fits a vector register; no write reaches the constants. -/
theorem gldCopiesTheGenerator : Obligations.GldCopiesTheGenerator := by
  intro s rd hs
  have hnum := legal_numbers hs.1
  exact ⟨writeVector_of_le (by omega), (Int.sub_add_cancel _ 1).symm, fun _ => rfl, formatR_toNat_one (by decide) rd.num⟩

end Sys2Proof.Machine

/-! The statements about the fault record (`60_exceptions.md`): the entry of a fault, what a faulted block does with the
words it is offered, and which kinds are ever recorded. -/

namespace Sys2Proof.Machine

/-! ### Taking a fault (R231, R236) -/

/-- The response to a command that raised a fault (R34, R236). -/
theorem answer_raise (s : State) (k : Kind) (w : Word) :
    answer (.next (s.raise k w)) = .next { s.raise k w with rsp := some ⟨true, k.code⟩ } := rfl

theorem State.causeWord_raise (s : State) (k : Kind) (w : Word) : (s.raise k w).causeWord = k.code.setWidth 32 := by
  rw [State.causeWord, State.raise_cause, causeCode]

/-- Settles O8, by the lemmas that say what each field holds after `raise`. -/
theorem raiseWritesOnlyTheFaultRecord : Obligations.RaiseWritesOnlyTheFaultRecord := by
  refine ⟨fun s k w => ?_, by decide⟩
  exact ⟨s.raise_fault k w, s.causeWord_raise k w, s.raise_fcmd k w, s.getV_raise k w, s.getX_raise k w,
    s.raise_found k w, s.raise_code k w, s.raise_host k w, answer_raise s k w⟩

/-! ### A faulted block (R237, R238) -/

/-- A block that has been built and reset and has recorded a fault; `State.Ready` is the other half. -/
abbrev State.Faulted (s : State) : Prop := legal s.code = true ∧ s.live = true ∧ s.fault = true

/-- The readout port shows neither the response nor the host's queue (R34). -/
theorem State.readout_of_rsp_host (s : State) (r : Option Response) (h : List HostMove) (sel : BitVec 6) :
    State.readout { s with rsp := r, host := h } sel = s.readout sel := by
  unfold State.readout
  rfl

section

variable {s : State}

theorem State.Faulted.step_refuses (hs : s.Faulted) {w : Word} {later : List HostMove}
    (hh : s.host = .command w :: later) :
    step s = .next { s with rsp := some ⟨true, causeCode s.cause⟩, host := later } := by
  obtain ⟨hl, hlive, hf⟩ := hs
  rw [Machine.step_refuses hl hlive hf hh, State.respond, hf]

/-- A step of a faulted block that is offered words only takes one word, if there is one, and changes the response. -/
theorem State.Faulted.step_words (hs : s.Faulted) {words : List Word} (hh : s.host = words.map .command) :
    ∃ r, step s = .next { s with rsp := r, host := words.tail.map .command } := by
  match words with
  | [] => exact ⟨none, by rw [step_idle hs.1 hh, List.tail_nil, ← hh]⟩
  | w :: words => exact ⟨_, hs.step_refuses hh⟩

theorem run_succ_of_step {t : State} (k : Nat) (h : step s = .next t) :
    Host.Core.run core (k + 1) s = Host.Core.run core k t := by
  have h' : core.step s = .next t := h
  simp only [Host.Core.run, h']

/-- `k` steps of a faulted block that is offered words only take the first `k` words and change the response. -/
theorem State.Faulted.run_words (hs : s.Faulted) {words : List Word} (hh : s.host = words.map .command) (k : Nat) :
    ∃ r, Host.Core.run core k s = .next { s with rsp := r, host := (words.drop k).map .command } := by
  induction k generalizing s words with
  | zero => exact ⟨s.rsp, by rw [List.drop_zero, ← hh]; rfl⟩
  | succ k ih =>
    obtain ⟨r, hstep⟩ := hs.step_words hh
    obtain ⟨r', hrun⟩ := ih (s := { s with rsp := r, host := words.tail.map .command }) hs rfl
    exact ⟨r', by rw [run_succ_of_step k hstep, hrun, List.drop_tail]⟩

end

/-- Settles O7: after `k` steps only the response and the host's queue can differ. -/
theorem faultLastsUntilReset : Obligations.FaultLastsUntilReset := by
  intro k s words hl hlive hf hh
  obtain ⟨r, hrun⟩ := State.Faulted.run_words ⟨hl, hlive, hf⟩ hh k
  exact ⟨_, hrun, rfl, rfl, rfl, hf, rfl, rfl, rfl, hlive⟩

/-- Settles O6: the step is `State.Faulted.step_refuses`. -/
theorem faultedBlockRefusesEveryWord : Obligations.FaultedBlockRefusesEveryWord := by
  intro s w later hl hlive hf hh
  exact ⟨State.Faulted.step_refuses ⟨hl, hlive, hf⟩ hh, s.readout_of_rsp_host _ _⟩

/-! ### Which kinds are recorded (R233) -/

section

variable {i : Instr} {s t : State}

/-- A command that changes `CAUSE` records a kind that can occur, and `InvalidElement` only when it is VSET. -/
theorem Effect.new_cause (h : Effect i s t) (hne : t.cause ≠ s.cause) :
    ∃ k, t.cause = some k ∧ k.canOccur = true ∧ (k = .invalidElement → i.mnemonic = "VSET") := by
  cases h with
  | fault k hk hv => exact ⟨k, rfl, hk, hv⟩
  | vector | vectors | scalar | notFound | found => exact absurd rfl hne

/-- VSET with a value that is no element of GF(2) raises `InvalidElement` (R116). -/
theorem exec_vset_of_invalidElement {rd : VReg} {ra rb : XReg} (h0 : s.getX rb ≠ 0) (h1 : s.getX rb ≠ 1) :
    exec (.vset rd ra rb) s = .next (s.raise .invalidElement (encode (.vset rd ra rb))) :=
  if_pos ⟨h0, h1⟩

end

/-- A block after reset whose `X2` holds 2, no element of GF(2). -/
def nonElementState : State := State.reset.setX ⟨2⟩ 2

theorem getX_nonElementState : nonElementState.getX ⟨2⟩ = 2 :=
  State.reset.getX_setX_same ⟨2⟩ (by decide) (by decide)

/-- The invariant bounds the vector registers, which the scalar write leaves as reset left them. -/
theorem inv_nonElementState : nonElementState.Inv := resetMeetsTheInvariant.1

theorem ready_nonElementState : nonElementState.Ready := ⟨inv_nonElementState.1, rfl, rfl⟩

/-- Settles O20: VSET of the value 2 records `InvalidElement`; what a command newly records is a kind that can occur, and
the three others cannot. -/
theorem typeFaultsNeverOccur : Obligations.TypeFaultsNeverOccur := by
  constructor
  · have hraise := exec_vset_of_invalidElement (s := nonElementState) (rd := ⟨0⟩) (ra := ⟨1⟩) (rb := ⟨2⟩)
      (by rw [getX_nonElementState]; decide) (by rw [getX_nonElementState]; decide)
    exact ⟨_, _, _, inv_nonElementState, ready_nonElementState, hraise, rfl⟩
  · intro i s t h hne
    obtain ⟨k, hk, hocc, hvset⟩ := (effect_of_exec h).new_cause hne
    have never {k' : Kind} (hk' : k'.canOccur = false) : t.cause ≠ some k' := by
      intro hc
      obtain rfl := Option.some.inj (hk.symm.trans hc)
      simp [hocc] at hk'
    exact ⟨never rfl, never rfl, never rfl, fun hc => hvset (Option.some.inj (hk.symm.trans hc))⟩

end Sys2Proof.Machine

/-! The statements about reset (`70_reset_and_hazards.md`): the step is the earlier lemma for its host move, and the fields
of the state it leaves are those of `State.resetOf`. -/

namespace Sys2Proof.Machine

section

variable (c : CodeParams) (h : List HostMove)

@[simp] theorem State.causeWord_resetOf : (State.resetOf c h).causeWord = 0 := rfl

/-- A reset block takes words (R35). -/
@[simp] theorem State.cmdReady_resetOf : (State.resetOf c h).cmdReady = true := rfl

end

/-- Settles O10, by `step_reset` and the lemmas that say what each register holds after reset. -/
theorem resetGivesTheResetState : Obligations.ResetGivesTheResetState := by
  intro s later hl hh
  exact ⟨_, step_reset hl hh, State.getV_resetOf _ _, State.getX_resetOf _ _, State.resetOf_found _ _,
    State.resetOf_fault _ _, State.resetOf_cause _ _, State.causeWord_resetOf _ _, State.resetOf_fcmd _ _,
    State.resetOf_code _ _⟩

/-- Settles O11: the step is `step_commandThenReset`, which does not look at the word. -/
theorem resetAbandonsTheCommand : Obligations.ResetAbandonsTheCommand := by
  intro s w later hl hlive hh
  exact ⟨step_commandThenReset hl hlive hh, State.resetOf_rsp _ _, State.cmdReady_resetOf _ _⟩

end Sys2Proof.Machine
